-- ==== Sys2Proof/Word.lean ====
section
/-! DEFINITION. The word types of the LS8 core: everything it stores is an unsigned byte (R10, R20, R50),
and the flags are three bits (R28). -/

namespace Sys2Proof

/-- A register, a memory cell, an opcode or an operand byte: an unsigned 8-bit value (R10). -/
abbrev Byte := BitVec 8

/-- The flags register FL: bit 0 equal (E), bit 1 greater (G), bit 2 less (L) (R28). -/
abbrev FlagWord := BitVec 3

end Sys2Proof
end

