-- ==== Sys2Proof/Syntax.lean ====
section
/-! DEFINITION. The instructions: one constructor for each of the seventeen rows of spec/opcode_table.json (R3, R80). -/

namespace Sys2Proof

/-- An operand byte as the fetch hands it to the instruction. With strictOperandFetch false, an operand byte
whose address is above 255 holds no value (R105): that is `missing`. -/
inductive Operand where
  | byte (v : Byte)
  | missing
  deriving DecidableEq, Repr

/-- The instruction set, in the table's order. `a` and `b` are the whole operand bytes at PC+1 and PC+2, used as
register indices without masking (R74); `i` is LDI's immediate (R75). -/
inductive Instr where
  | hlt
  | ret
  | push (a : Operand)
  | pop (a : Operand)
  | prn (a : Operand)
  | call (a : Operand)
  | jmp (a : Operand)
  | jeq (a : Operand)
  | jne (a : Operand)
  | ldi (a i : Operand)
  | add (a b : Operand)
  | mul (a b : Operand)
  | mod (a b : Operand)
  | cmp (a b : Operand)
  | or (a b : Operand)
  | shl (a b : Operand)
  | shr (a b : Operand)
  deriving DecidableEq, Repr

/-- The operands of an instruction, in the order of their bytes (R73). -/
def Instr.operands : Instr → List Operand
  | .hlt | .ret => []
  | .push a | .pop a | .prn a | .call a | .jmp a | .jeq a | .jne a => [a]
  | .ldi a b | .add a b | .mul a b | .mod a b | .cmp a b | .or a b | .shl a b | .shr a b => [a, b]

end Sys2Proof
end

