-- ==== Sys2Proof/WellFormed.lean ====
section
/-! DEFINITION. Which instructions have an encoding: those whose operand bytes are all there. Every byte value is
allowed in every operand (R74, R75), so a present operand is never ill-formed: an index above 7 is a fatal condition of the
machine (R24), not of the syntax. -/

namespace Sys2Proof

/-- The operand byte is there. -/
def Operand.present : Operand → Bool
  | .byte _ => true
  | .missing => false

/-- Every operand byte of the instruction is there (R70, R73). -/
def Instr.wellFormed (i : Instr) : Bool := i.operands.all Operand.present

/-- The check as a proposition that `decide` runs. -/
abbrev WellFormed (i : Instr) : Prop := i.wellFormed = true

end Sys2Proof
end

