-- ==== Sys2Proof/Decode.lean ====
section
/-! DEFINITION. The decoder, total on any bytes and rejecting by name, and the encoder, both written from the
opcode table of 30_encoding.md R80 and the formats of R73. -/

namespace Sys2Proof

/-! ### The fields of the opcode byte (R71, R106) -/

/-- Bits 7:6: the number of operand bytes after the opcode. -/
def operandCount (op : Byte) : Nat := op.toNat / 64

/-- Bit 5: the opcode is of the ALU class. -/
def isAlu (op : Byte) : Bool := op.getLsbD 5

/-- Bit 4: the instruction sets PC itself and gets no default advance. -/
def setsPc (op : Byte) : Bool := op.getLsbD 4

/-- instruction_size = operand_count + 1, also for the unknown opcodes with count 3 (R72, R121). -/
def instructionSize (op : Byte) : Nat := operandCount op + 1

/-! ### Decoding -/

/-- An opcode byte that is none of the seventeen, by the class R81 puts it in. -/
inductive UnknownOpcode where
  /-- is_alu = 1, whatever sets_pc is (R118). -/
  | alu (op : Byte)
  /-- is_alu = 0 and sets_pc = 1 (R119). -/
  | branching (op : Byte)
  /-- is_alu = 0 and sets_pc = 0 (R120). -/
  | nonBranching (op : Byte)
  deriving DecidableEq, Repr

/-- The class of an opcode byte that R80 does not list (R81). -/
def classifyUnknown (op : Byte) : UnknownOpcode :=
  if isAlu op then .alu op else if setsPc op then .branching op else .nonBranching op

/-- Dispatch on the whole opcode byte (R77, R107), the operand bytes as fetched. An instruction takes the
operand bytes its format has and ignores the others (R76). The byte values are the spec's decision D1 (log 1). -/
def decode (op : Byte) (a b : Operand) : Except UnknownOpcode Instr :=
  match op with
  | 0x01#8 => .ok .hlt
  | 0x11#8 => .ok .ret
  | 0x45#8 => .ok (.push a)
  | 0x46#8 => .ok (.pop a)
  | 0x47#8 => .ok (.prn a)
  | 0x50#8 => .ok (.call a)
  | 0x54#8 => .ok (.jmp a)
  | 0x55#8 => .ok (.jeq a)
  | 0x56#8 => .ok (.jne a)
  | 0x82#8 => .ok (.ldi a b)
  | 0xA0#8 => .ok (.add a b)
  | 0xA2#8 => .ok (.mul a b)
  | 0xA4#8 => .ok (.mod a b)
  | 0xA7#8 => .ok (.cmp a b)
  | 0xAA#8 => .ok (.or a b)
  | 0xAC#8 => .ok (.shl a b)
  | 0xAD#8 => .ok (.shr a b)
  | _ => .error (classifyUnknown op)

/-- Why a list of bytes is no instruction. -/
inductive DecodeRefusal where
  | noBytes
  | unknown (u : UnknownOpcode)
  deriving DecidableEq, Repr

/-- The first operand of a byte list, missing where the list ends. -/
def operandOf (bytes : List Byte) : Operand :=
  match bytes with
  | [] => .missing
  | v :: _ => .byte v

/-- Decoding of the bytes at increasing addresses: the opcode, then operand_a, then operand_b (R53, R70). -/
def decodeBytes (bytes : List Byte) : Except DecodeRefusal Instr :=
  match bytes with
  | [] => .error .noBytes
  | op :: rest =>
    match decode op (operandOf rest) (operandOf rest.tail) with
    | .ok i => .ok i
    | .error u => .error (.unknown u)

/-- The instruction decoded from the word the host numbers as spec/opcode_table.json does: the opcode is bits 7:0,
operand_a bits 15:8, operand_b bits 23:16, and every bit from nbits up is 0. -/
def decodeTableWord (nbits w : Nat) : Option Instr :=
  match decodeBytes [BitVec.ofNat 8 (w % 2 ^ nbits), BitVec.ofNat 8 (w % 2 ^ nbits / 2 ^ 8),
      BitVec.ofNat 8 (w % 2 ^ nbits / 2 ^ 16)] with
  | .ok i => some i
  | .error _ => none

/-! ### Encoding -/

/-- The opcode byte of each mnemonic (R80). -/
def Instr.opcode : Instr → Byte
  | .hlt => 0x01
  | .ret => 0x11
  | .push _ => 0x45
  | .pop _ => 0x46
  | .prn _ => 0x47
  | .call _ => 0x50
  | .jmp _ => 0x54
  | .jeq _ => 0x55
  | .jne _ => 0x56
  | .ldi _ _ => 0x82
  | .add _ _ => 0xA0
  | .mul _ _ => 0xA2
  | .mod _ _ => 0xA4
  | .cmp _ _ => 0xA7
  | .or _ _ => 0xAA
  | .shl _ _ => 0xAC
  | .shr _ _ => 0xAD

/-- The byte of an operand; a missing operand has none. -/
def Operand.bytes : Operand → List Byte
  | .byte v => [v]
  | .missing => []

/-- The bytes of an instruction at increasing addresses (R70, R73). -/
def encode (i : Instr) : List Byte := i.opcode :: i.operands.flatMap Operand.bytes

end Sys2Proof
end

