-- ==== Sys2Proof/Config.lean ====
section
/-! DEFINITION. What an implementation fixes: the five named parameters of 00_scope.md R8 and the fixed
constants of R6. No instruction of this machine leaves a result open, so there is no free value here. -/

namespace Sys2Proof

/-- What an unknown opcode with is_alu = 0 and sets_pc = 0 does (R8, R120). -/
inductive UnknownOpcodePolicy where
  | skip
  | fault
  deriving DecidableEq, Repr

/-- The two parameters of R8 that act in every cycle. They are fixed for one machine; State carries them so
that every statement over all states is a statement over every value of them (log 6). -/
structure Params where
  /-- R104 when true (the default), R105 when false. -/
  strictOperandFetch : Bool
  unknownOpcodePolicy : UnknownOpcodePolicy
  deriving DecidableEq, Repr

/-- The defaults of R8: D8 takes true and D9 takes skip. -/
def Params.default : Params := { strictOperandFetch := true, unknownOpcodePolicy := .skip }

/-- All five named parameters of R8. -/
structure Config where
  /-- Values of R0 to R6 after reset: any (D5). -/
  resetRegs : Vector Byte 7
  /-- Value of FL after reset: any, more than one bit may be set (D6, R29). -/
  resetFL : FlagWord
  /-- Memory before the loader writes the program: any (D7). -/
  mem0 : Vector Byte 256
  params : Params
  deriving DecidableEq, Repr

/-- The values the model names for `State.reset`. DESIGN CHOICE, unsafe: the spec gives no value for
resetRegs, resetFL and mem0, and zero is the model's (log 2, 3, 4). -/
def Config.default : Config :=
  { resetRegs := Vector.replicate 7 0, resetFL := 0, mem0 := Vector.replicate 256 0, params := Params.default }

/-- The top-of-stack constant: SP after reset and the highest value a stack instruction may leave (R6, R180). -/
def spInit : Byte := 0xF4

/-- The number of memory cells (R6, R50). -/
def memSize : Nat := 256

end Sys2Proof
end

