-- ==== Sys2Proof/Machine/State.lean ====
section
/-! DEFINITION. The state of the core as plain data, and its value after reset (10_state.md, R37). -/

namespace Sys2Proof.Machine

/-- Memory: the listed cells, addresses strictly rising; a cell that is not listed reads as
`Memory.unlistedByte` (Machine/Ops.lean). -/
abbrev Memory := List Host.Cell

/-- The run state (R27, R100). -/
inductive RunState where
  | running
  | halted
  deriving DecidableEq, Repr

/-- The cause field of the fault record; its code is `Cause.code` (R230, D13). -/
inductive Cause where
  | noCondition
  | addressOutOfRange
  | registerOutOfRange
  | unsupportedOperation
  | divisionByZero
  | stackUnderflow
  | stackOverflow
  deriving DecidableEq, Repr

/-- A fatal condition as an instruction raises it, with the info R230 records. -/
inductive Condition where
  | addressOutOfRange (addr : Nat)
  | registerOutOfRange (index : Byte)
  | unsupportedOperation
  | divisionByZero
  | stackUnderflow
  | stackOverflow
  deriving DecidableEq, Repr

/-- The fault record (R231): empty (`noCondition`, code 0) until a fatal condition. -/
structure FaultRecord where
  cause : Cause
  /-- PC of the faulting instruction. -/
  pc : Nat
  /-- The byte in IR, or none when the opcode fetch itself failed. -/
  opcode : Option Byte
  /-- The address or the index, or none. -/
  info : Option Nat
  deriving DecidableEq, Repr

/-- The empty record. DESIGN CHOICE: the spec gives the cause code of an empty record, not its other fields (log 12). -/
def FaultRecord.empty : FaultRecord := { cause := .noCondition, pc := 0, opcode := none, info := none }

/-- Everything the spec gives the machine. -/
structure State where
  /-- R0 to R7; R7 is SP, the same storage (R20, R22). -/
  regs : Vector Byte 8
  /-- An integer, never wrapped (R25). -/
  pc : Nat
  run : RunState
  fl : FlagWord
  mem : Memory
  /-- The bytes PRN has emitted, oldest first (R164). -/
  output : List Byte
  fault : FaultRecord
  /-- The instruction register (R34). -/
  ir : Byte
  /-- The operand latches; `missing` is the latch that holds no value (R34, R105). -/
  latchA : Operand
  latchB : Operand
  /-- The host's halt-request input, sampled at the top of each cycle (R101). The core never writes it. -/
  haltRequest : Bool
  /-- The parameters of R8 that act in every cycle; no step writes them (log 6). -/
  params : Params
  deriving DecidableEq, Repr

/-- The machine right after reset (R37, R270): R7 is 0xF4, PC 0, Running, the fault record and the output empty. R0 to
R6, FL and memory are unspecified there and hold the model's named values (log 2, 3, 4). -/
def State.reset : State :=
  { regs := Vector.replicate 7 0 |>.push spInit
    pc := 0
    run := .running
    fl := 0
    mem := []
    output := []
    fault := FaultRecord.empty
    ir := 0
    latchA := .byte 0
    latchB := .byte 0
    haltRequest := false
    params := Params.default }

/-- Reasons a step stops with a fault. There are none: every fatal condition of this machine has an effect the spec
describes (R236), so the model takes it as a next state (log 9). Nobody raises a fault; this is safe and unsafe for no claim. -/
inductive Fault where
  deriving DecidableEq, Repr

/-- Reasons a step gives no meaning. -/
inductive Refusal where
  /-- Raised only by an arm of `exec` whose instruction has no meaning yet; safe. No arm raises it now. -/
  | notModelled (mnemonic : String)
  deriving DecidableEq, Repr

/-- What a step of this machine answers. -/
abbrev StepOutcome := Host.Outcome State Fault Refusal

end Sys2Proof.Machine
end

