-- ==== Sys2Proof/Machine/Ops.lean ====
section
/-! DEFINITION. The named operations over registers, memory and the rest of the state, taking a fatal condition, and
the end of an instruction (the PC update). -/

namespace Sys2Proof.Machine

/-! ### One setter per field -/

def State.setRegs (s : State) (v : Vector Byte 8) : State := { s with regs := v }
def State.setPc (s : State) (v : Nat) : State := { s with pc := v }
def State.setRun (s : State) (v : RunState) : State := { s with run := v }
def State.setFl (s : State) (v : FlagWord) : State := { s with fl := v }
def State.setMem (s : State) (v : Memory) : State := { s with mem := v }
def State.setOutput (s : State) (v : List Byte) : State := { s with output := v }
def State.setFault (s : State) (v : FaultRecord) : State := { s with fault := v }
def State.setIr (s : State) (v : Byte) : State := { s with ir := v }
def State.setLatchA (s : State) (v : Operand) : State := { s with latchA := v }
def State.setLatchB (s : State) (v : Operand) : State := { s with latchB := v }
def State.setHaltRequest (s : State) (v : Bool) : State := { s with haltRequest := v }

/-! ### Registers -/

/-- The stack pointer's index (R22). -/
def spIndex : Fin 8 := 7

/-- Read of a register that exists. No register is hardwired (R21). -/
def State.reg (s : State) (k : Fin 8) : Byte := s.regs[k]

/-- Write of a register that exists. -/
def State.setReg (s : State) (k : Fin 8) (v : Byte) : State := s.setRegs (s.regs.set k v)

/-- SP is register 7: one storage under two names (R22). -/
def State.sp (s : State) : Byte := s.reg spIndex

def State.setSp (s : State) (v : Byte) : State := s.setReg spIndex v

/-- The register an index names. The index is not masked or wrapped; above 7 it raises RegisterOutOfRange (R24). -/
def registerIndex (index : Byte) : Except Condition (Fin 8) :=
  if h : index.toNat < 8 then .ok ⟨index.toNat, h⟩ else .error (.registerOutOfRange index)

/-! ### Memory -/

/-- What a cell that is not listed reads as. DESIGN CHOICE, unsafe: `mem0` is unspecified (D7, log 4). -/
def Memory.unlistedByte : Byte := 0

/-- The byte a memory holds at an address. -/
def Memory.read (m : Memory) (addr : Nat) : Byte :=
  match m with
  | [] => Memory.unlistedByte
  | (a, v) :: rest => if addr = a then v else Memory.read rest addr

/-- The memory without the cells at an address. -/
def Memory.erase (m : Memory) (addr : Nat) : Memory := m.filter fun c => c.1 != addr

/-- A cell put at its place in the rising order. -/
def Memory.insert (m : Memory) (addr : Nat) (v : Byte) : Memory :=
  match m with
  | [] => [(addr, v)]
  | (a, w) :: rest => if addr < a then (addr, v) :: (a, w) :: rest else (a, w) :: Memory.insert rest addr v

/-- A byte written, the canonical form kept: the value an unlisted cell reads as is not listed. -/
def Memory.write (m : Memory) (addr : Nat) (v : Byte) : Memory :=
  if v = Memory.unlistedByte then m.erase addr else (m.erase addr).insert addr v

/-- Addresses strictly rising from `lo`, all below 256, and no listed value that an unlisted cell reads as. -/
def Memory.wfFrom (lo : Nat) (m : Memory) : Bool :=
  match m with
  | [] => true
  | (a, v) :: rest => decide (lo ≤ a) && decide (a < memSize) && v != Memory.unlistedByte && Memory.wfFrom (a + 1) rest

/-- The canonical form. -/
def Memory.wf (m : Memory) : Bool := m.wfFrom 0

/-- The cells of consecutive bytes from an address on. -/
def Memory.ofBytes (addr : Nat) (bytes : List Byte) : Memory :=
  match bytes with
  | [] => []
  | v :: rest =>
    if v = Memory.unlistedByte then Memory.ofBytes (addr + 1) rest else (addr, v) :: Memory.ofBytes (addr + 1) rest

/-- A byte put at an address that exists; an address above 255 is left out. For the placing of instruction bytes from
outside the core, not for an instruction's own write. -/
def Memory.place (m : Memory) (addr : Nat) (v : Byte) : Memory := if addr < memSize then m.write addr v else m

/-- MemRead(addr, 1) (R51). -/
def memRead (s : State) (addr : Nat) : Except Condition Byte :=
  if addr < memSize then .ok (s.mem.read addr) else .error (.addressOutOfRange addr)

/-- MemWrite(addr, 1, v) (R51). -/
def memWrite (s : State) (addr : Nat) (v : Byte) : Except Condition State :=
  if addr < memSize then .ok (s.setMem (s.mem.write addr v)) else .error (.addressOutOfRange addr)

/-! ### Output -/

/-- emit(v): one byte appended to the output channel (R12, R164). -/
def State.emit (s : State) (v : Byte) : State := s.setOutput (s.output ++ [v])

/-! ### Fatal conditions: the one operation that takes them -/

/-- The cause codes of R230. -/
def Cause.code : Cause → Nat
  | .noCondition => 0
  | .addressOutOfRange => 1
  | .registerOutOfRange => 2
  | .unsupportedOperation => 3
  | .divisionByZero => 4
  | .stackUnderflow => 5
  | .stackOverflow => 6

/-- The cause of a condition (R230). -/
def Condition.cause : Condition → Cause
  | .addressOutOfRange _ => .addressOutOfRange
  | .registerOutOfRange _ => .registerOutOfRange
  | .unsupportedOperation => .unsupportedOperation
  | .divisionByZero => .divisionByZero
  | .stackUnderflow => .stackUnderflow
  | .stackOverflow => .stackOverflow

/-- The info a condition records: the address, the index, or none (R230). -/
def Condition.info : Condition → Option Nat
  | .addressOutOfRange addr => some addr
  | .registerOutOfRange index => some index.toNat
  | .unsupportedOperation => none
  | .divisionByZero => none
  | .stackUnderflow => none
  | .stackOverflow => none

/-- The faulted stop (R236): the fault record is written, the run state becomes Halted, and nothing else changes; PC keeps
the faulting instruction's address (R110). There is no handler and no return from it (R239): only reset leaves Halted. -/
def State.takeFatal (s : State) (c : Condition) (opcode : Option Byte) : State :=
  (s.setFault { cause := c.cause, pc := s.pc, opcode := opcode, info := c.info }).setRun .halted

/-! ### The end of an instruction -/

/-- The PC update that ends an instruction (R108, R109, R110). `body` is the instruction's own effect on the state `s` at
the start of its execute phase. A raised condition stops on `s` itself, so none of the effect lands (R236); with sets_pc 0, PC
advances by the instruction's size, not reduced modulo 256; with sets_pc 1 the body has set PC. -/
def complete (op : Byte) (s : State) (body : Except Condition State) : StepOutcome :=
  match body with
  | .error c => .next (s.takeFatal c (some op))
  | .ok t => .next (if setsPc op then t else t.setPc (s.pc + instructionSize op))

end Sys2Proof.Machine
end

