-- ==== Sys2Proof/Machine/Flags.lean ====
section
/-! DEFINITION. Every flag computation: CMP writes all three bits of FL, JEQ and JNE read bit 0. -/

namespace Sys2Proof.Machine

/-- FL after a CMP: exactly one of E, G and L, the comparison unsigned (R137). -/
def compareFlags (ra rb : Byte) : FlagWord :=
  if ra = rb then 0b001 else if rb.toNat < ra.toNat then 0b010 else 0b100

/-- E, the one flag a branch reads (R30). -/
def State.equalFlag (s : State) : Bool := s.fl.getLsbD 0

end Sys2Proof.Machine
end

