-- ==== Sys2Proof/Machine/Operands.lean ====
section
/-! DEFINITION. Every operand form: a register index in operand_a or operand_b, and LDI's immediate. -/

namespace Sys2Proof.Machine

/-- The address of operand_a (R70). -/
def addrA (s : State) : Nat := s.pc + 1

/-- The address of operand_b (R70). -/
def addrB (s : State) : Nat := s.pc + 2

/-- An instruction consults an operand byte: one that holds no value raises AddressOutOfRange with its address, at the
point that consults it (R105). -/
def consult (o : Operand) (addr : Nat) : Except Condition Byte :=
  match o with
  | .byte v => .ok v
  | .missing => .error (.addressOutOfRange addr)

/-- A register operand: the byte is consulted, then the index is checked (R24, R74). -/
def consultRegister (o : Operand) (addr : Nat) : Except Condition (Fin 8) :=
  match consult o addr with
  | .error c => .error c
  | .ok index => registerIndex index

/-- The register operand_a names. -/
def registerA (a : Operand) (s : State) : Except Condition (Fin 8) := consultRegister a (addrA s)

/-- The register operand_b names. -/
def registerB (b : Operand) (s : State) : Except Condition (Fin 8) := consultRegister b (addrB s)

end Sys2Proof.Machine
end

