-- ==== Sys2Proof/Machine/Alu.lean ====
section
/-! DEFINITION. The seven ALU operations (41_alu.md). -/

namespace Sys2Proof.Machine

/-! ### The results, each computed exactly and then masked to 8 bits (R138) -/

def addResult (ra rb : Byte) : Except Condition Byte := .ok (BitVec.ofNat 8 (ra.toNat + rb.toNat))

def mulResult (ra rb : Byte) : Except Condition Byte := .ok (BitVec.ofNat 8 (ra.toNat * rb.toNat))

def orResult (ra rb : Byte) : Except Condition Byte := .ok (ra ||| rb)

/-- The unsigned remainder; a zero divisor raises DivisionByZero (R134, R140). -/
def modResult (ra rb : Byte) : Except Condition Byte :=
  if rb = 0 then .error .divisionByZero else .ok (BitVec.ofNat 8 (ra.toNat % rb.toNat))

/-- The shift amount is the whole byte, not reduced modulo 8 (R135). -/
def shlResult (ra rb : Byte) : Except Condition Byte := .ok (BitVec.ofNat 8 (ra.toNat * 2 ^ rb.toNat))

/-- A logical shift by the whole byte (R136). -/
def shrResult (ra rb : Byte) : Except Condition Byte := .ok (BitVec.ofNat 8 (ra.toNat / 2 ^ rb.toNat))

/-! ### The two shapes of an ALU operation (R130): operand a is consulted and checked before operand b (R141, log 11) -/

/-- x[a] takes the result of x[a] and x[b]. -/
def aluWrite (f : Byte → Byte → Except Condition Byte) (a b : Operand) (s : State) : Except Condition State :=
  match registerA a s with
  | .error c => .error c
  | .ok ka =>
    match registerB b s with
    | .error c => .error c
    | .ok kb =>
      match f (s.reg ka) (s.reg kb) with
      | .error c => .error c
      | .ok v => .ok (s.setReg ka v)

/-- FL takes the comparison of x[a] and x[b]; no register is written. -/
def aluCompare (a b : Operand) (s : State) : Except Condition State :=
  match registerA a s with
  | .error c => .error c
  | .ok ka =>
    match registerB b s with
    | .error c => .error c
    | .ok kb => .ok (s.setFl (compareFlags (s.reg ka) (s.reg kb)))

/-! ### The meanings -/

/-- ADD Ra, Rb (R131). -/
def execAdd (a b : Operand) (s : State) : StepOutcome :=
  complete (Instr.opcode (.add a b)) s (aluWrite addResult a b s)

/-- MUL Ra, Rb (R132). -/
def execMul (a b : Operand) (s : State) : StepOutcome :=
  complete (Instr.opcode (.mul a b)) s (aluWrite mulResult a b s)

/-- MOD Ra, Rb (R134). -/
def execMod (a b : Operand) (s : State) : StepOutcome :=
  complete (Instr.opcode (.mod a b)) s (aluWrite modResult a b s)

/-- CMP Ra, Rb (R137). -/
def execCmp (a b : Operand) (s : State) : StepOutcome :=
  complete (Instr.opcode (.cmp a b)) s (aluCompare a b s)

/-- OR Ra, Rb (R133). -/
def execOr (a b : Operand) (s : State) : StepOutcome :=
  complete (Instr.opcode (.or a b)) s (aluWrite orResult a b s)

/-- SHL Ra, Rb (R135). -/
def execShl (a b : Operand) (s : State) : StepOutcome :=
  complete (Instr.opcode (.shl a b)) s (aluWrite shlResult a b s)

/-- SHR Ra, Rb (R136). -/
def execShr (a b : Operand) (s : State) : StepOutcome :=
  complete (Instr.opcode (.shr a b)) s (aluWrite shrResult a b s)

end Sys2Proof.Machine
end

