-- ==== Sys2Proof/Machine/Stack.lean ====
section
/-! DEFINITION. The stack discipline (R180), PUSH and POP (43_stack.md). The bound is checked by the instruction that
would move SP, before it changes any state. -/

namespace Sys2Proof.Machine

/-- SP <- SP - 1, or StackOverflow from SP = 0 (R180). -/
def stackDown (s : State) : Except Condition State :=
  if s.sp = 0 then .error .stackOverflow else .ok (s.setSp (s.sp - 1))

/-- The byte at SP, or StackUnderflow where SP is at or above the top-of-stack constant (R180). -/
def stackTop (s : State) : Except Condition Byte :=
  if spInit.toNat ≤ s.sp.toNat then .error .stackUnderflow else memRead s s.sp.toNat

/-- PUSH's effect: x[a] is read after the decrement, so PUSH R7 stores the decremented SP (R182, R14). -/
def pushBody (a : Operand) (s : State) : Except Condition State :=
  match registerA a s with
  | .error c => .error c
  | .ok k =>
    match stackDown s with
    | .error c => .error c
    | .ok t => memWrite t t.sp.toNat (t.reg k)

/-- PUSH Ra (R182). -/
def execPush (a : Operand) (s : State) : StepOutcome :=
  complete (Instr.opcode (.push a)) s (pushBody a s)

/-- POP's effect: into R7 the popped value is incremented, and must not exceed the top-of-stack constant (R183, D17). -/
def popBody (a : Operand) (s : State) : Except Condition State :=
  match registerA a s with
  | .error c => .error c
  | .ok k =>
    match stackTop s with
    | .error c => .error c
    | .ok v =>
      if k ≠ spIndex then .ok ((s.setReg k v).setSp (s.sp + 1))
      else if spInit.toNat < v.toNat + 1 then .error .stackUnderflow
      else .ok (s.setSp (v + 1))

/-- POP Ra (R183). -/
def execPop (a : Operand) (s : State) : StepOutcome :=
  complete (Instr.opcode (.pop a)) s (popBody a s)

end Sys2Proof.Machine
end

