-- ==== Sys2Proof/Machine/Control.lean ====
section
/-! DEFINITION. CALL, RET, JMP, JEQ and JNE (44_control_flow.md). Each has sets_pc = 1 and sets PC itself (R79, R109). -/

namespace Sys2Proof.Machine

/-- The address just after a one-operand instruction: PC + instruction_size (R200, R203). -/
def afterOneOperand (s : State) : Nat := s.pc + 2

/-- CALL's effect: the index, the stack bound, then the return address are checked (R208); x[a] is read after the
decrement, so CALL R7 jumps to the decremented SP (R200). -/
def callBody (a : Operand) (s : State) : Except Condition State :=
  match registerA a s with
  | .error c => .error c
  | .ok k =>
    match stackDown s with
    | .error c => .error c
    | .ok t =>
      if memSize ≤ afterOneOperand s then .error (.addressOutOfRange (afterOneOperand s))
      else
        match memWrite t t.sp.toNat (BitVec.ofNat 8 (afterOneOperand s)) with
        | .error c => .error c
        | .ok u => .ok (u.setPc (u.reg k).toNat)

/-- CALL Ra (R200). -/
def execCall (a : Operand) (s : State) : StepOutcome :=
  complete (Instr.opcode (.call a)) s (callBody a s)

/-- RET's effect. -/
def retBody (s : State) : Except Condition State :=
  match stackTop s with
  | .error c => .error c
  | .ok v => .ok ((s.setPc v.toNat).setSp (s.sp + 1))

/-- RET (R201). -/
def execRet (s : State) : StepOutcome :=
  complete (Instr.opcode .ret) s (retBody s)

/-- pc <- x[a]. -/
def jumpTo (a : Operand) (s : State) : Except Condition State :=
  match registerA a s with
  | .error c => .error c
  | .ok k => .ok (s.setPc (s.reg k).toNat)

/-- A branch: taken, it jumps; not taken, PC + 2 and the operand is not consulted (R113, R203, R204). -/
def branchIf (taken : Bool) (a : Operand) (s : State) : Except Condition State :=
  if taken then jumpTo a s else .ok (s.setPc (afterOneOperand s))

/-- JMP Ra (R202). -/
def execJmp (a : Operand) (s : State) : StepOutcome :=
  complete (Instr.opcode (.jmp a)) s (jumpTo a s)

/-- JEQ Ra (R203): branches when E = 1. -/
def execJeq (a : Operand) (s : State) : StepOutcome :=
  complete (Instr.opcode (.jeq a)) s (branchIf s.equalFlag a s)

/-- JNE Ra (R204): branches when E = 0. -/
def execJne (a : Operand) (s : State) : StepOutcome :=
  complete (Instr.opcode (.jne a)) s (branchIf (!s.equalFlag) a s)

end Sys2Proof.Machine
end

