-- ==== Sys2Proof/Machine/Data.lean ====
section
/-! DEFINITION. LDI, PRN and HLT (42_data_io.md). -/

namespace Sys2Proof.Machine

/-- x[a] <- i. DEDUCED: the operand bytes are consulted, then the index is checked by the write, so with a missing
immediate and an index above 7 it is AddressOutOfRange that is raised (R105, R160, R240, log 10).
DESIGN CHOICE: operand a is consulted before the immediate, so with both missing the address recorded is operand a's (log 23). -/
def ldiBody (a i : Operand) (s : State) : Except Condition State :=
  match consult a (addrA s) with
  | .error c => .error c
  | .ok index =>
    match consult i (addrB s) with
    | .error c => .error c
    | .ok v =>
      match registerIndex index with
      | .error c => .error c
      | .ok k => .ok (s.setReg k v)

/-- LDI Ra, i (R160). -/
def execLdi (a i : Operand) (s : State) : StepOutcome :=
  complete (Instr.opcode (.ldi a i)) s (ldiBody a i s)

/-- emit(x[a]). -/
def prnBody (a : Operand) (s : State) : Except Condition State :=
  match registerA a s with
  | .error c => .error c
  | .ok k => .ok (s.emit (s.reg k))

/-- PRN Ra (R161). -/
def execPrn (a : Operand) (s : State) : StepOutcome :=
  complete (Instr.opcode (.prn a)) s (prnBody a s)

/-- HLT (R162): Halted, and the default advance too (R111). -/
def execHlt (s : State) : StepOutcome :=
  complete (Instr.opcode .hlt) s (.ok (s.setRun .halted))

end Sys2Proof.Machine
end

