-- ==== Sys2Proof/Machine/Fetch.lean ====
section
/-! DEFINITION. The fetch phase of a cycle (R103 to R105). -/

namespace Sys2Proof.Machine

/-- What the fetch gives: IR and the latches loaded, or a fatal condition with the opcode fetched so far. -/
inductive Fetched where
  | ready (s : State)
  | raised (s : State) (c : Condition) (opcode : Option Byte)
  deriving DecidableEq, Repr

/-- The byte of an operand. At an address above 255 the strict fetch raises (R104), and the other leaves the latch
without a value (R105). -/
def fetchOperand (s : State) (addr : Nat) : Except Condition Operand :=
  match memRead s addr with
  | .ok v => .ok (.byte v)
  | .error c => if s.params.strictOperandFetch then .error c else .ok .missing

/-- IR <- M[PC], then A, then B, whatever the opcode. -/
def fetch (s : State) : Fetched :=
  match memRead s s.pc with
  | .error c => .raised s c none
  | .ok op =>
    match fetchOperand s (s.pc + 1) with
    | .error c => .raised (s.setIr op) c (some op)
    | .ok a =>
      match fetchOperand s (s.pc + 2) with
      | .error c => .raised ((s.setIr op).setLatchA a) c (some op)
      | .ok b => .ready (((s.setIr op).setLatchA a).setLatchB b)

end Sys2Proof.Machine
end

