-- ==== Sys2Proof/Machine/Unknown.lean ====
section
/-! DEFINITION. The 239 opcode bytes that are no instruction (R118 to R121). They are no constructors of Instr: the
decoder rejects them by class, and this is what the core does with each class. -/

namespace Sys2Proof.Machine

/-- The execute phase of an unknown opcode, decided from IR alone: no operand byte is consulted and no register read. -/
def unknownBody (u : UnknownOpcode) (s : State) : Except Condition State :=
  match u with
  | .alu _ => .error .unsupportedOperation
  | .branching op => .ok (s.setPc (s.pc + instructionSize op))
  | .nonBranching _ =>
    match s.params.unknownOpcodePolicy with
    | .skip => .ok s
    | .fault => .error .unsupportedOperation

/-- The opcode byte of an unknown opcode. -/
def unknownByte : UnknownOpcode → Byte
  | .alu op => op
  | .branching op => op
  | .nonBranching op => op

/-- An unknown opcode, with its PC update: a safe skip sets PC itself (R119), the skip policy gets the default advance
(R120), the others raise UnsupportedOperation (R118, R120). -/
def execUnknown (u : UnknownOpcode) (s : State) : StepOutcome :=
  complete (unknownByte u) s (unknownBody u s)

end Sys2Proof.Machine
end

