-- ==== Sys2Proof/Machine/Cycle.lean ====
section
/-! DEFINITION. One cycle of the core, in full (R114): the halt request, the fetch, decode and dispatch. The PC update
is the end of each instruction (`complete`). -/

namespace Sys2Proof.Machine

/-- Decode and execute, once IR and the latches are loaded (R106, R107). -/
def runFetched (s : State) : StepOutcome :=
  match decode s.ir s.latchA s.latchB with
  | .ok i => exec i s
  | .error u => execUnknown u s

/-- Fetch, decode and execute (R102). -/
def runCycle (s : State) : StepOutcome :=
  match fetch s with
  | .raised t c opcode => .next (t.takeFatal c opcode)
  | .ready t => runFetched t

/-- One step. In Halted the core changes no state (R100; log 8). In Running, a pending halt request is observed before the
fetch and only halts (R101); otherwise a cycle runs. -/
def cycle (s : State) : StepOutcome :=
  match s.run with
  | .halted => .next s
  | .running => if s.haltRequest then .next (s.setRun .halted) else runCycle s

end Sys2Proof.Machine
end

