-- ==== Sys2Proof/Machine/Step.lean ====
section
/-! DEFINITION. The step, and the placing of one instruction where it fetches. -/

namespace Sys2Proof.Machine

/-- One step of the machine. -/
def step (s : State) : Host.Outcome State Fault Refusal := cycle s

/-- `s` with the instruction of the table's word at PC: opcode, operand_a and operand_b at PC, PC + 1 and PC + 2, the
bits from nbits up zero. A cycle fetches only in Running with no halt request pending (R100, R101), so these two are set as
well. It stands for the load interface (R271, log 15). A PC above 253 has no room for three bytes. -/
def State.withFetchWord (s : State) (nbits w : Nat) : State :=
  let v := w % 2 ^ nbits
  { s with
    mem := ((s.mem.place s.pc (BitVec.ofNat 8 v)).place (s.pc + 1) (BitVec.ofNat 8 (v / 2 ^ 8))).place (s.pc + 2)
      (BitVec.ofNat 8 (v / 2 ^ 16))
    run := .running
    haltRequest := false }

end Sys2Proof.Machine
end

