-- ==== Sys2Proof/Machine/HostInterface.lean ====
section
/-! DEFINITION. The transaction-level interfaces of 00_scope.md R9 that are not part of a step: reset with any
parameters, the program load, the halt request, the status output and the trace tap. -/

namespace Sys2Proof.Machine

/-- Reset for any value of the five parameters of R8 (R37, R270). The hidden latches and the halt-request input, which
R37 leaves open, hold the values of `State.reset` (log 5, 7). -/
def State.resetWith (c : Config) : State :=
  { State.reset with
    regs := c.resetRegs.push spInit
    fl := c.resetFL
    mem := Memory.ofBytes 0 c.mem0.toList
    params := c.params }

/-- Bytes written at consecutive addresses through the memory write contract (R51, R271). -/
def loadFrom (addr : Nat) (bytes : List Byte) (s : State) : Except Condition State :=
  match bytes with
  | [] => .ok s
  | v :: rest =>
    match memWrite s addr v with
    | .error c => .error c
    | .ok t => loadFrom (addr + 1) rest t

/-- The loader's result for the core (R271): the program from address 0 in file order, or none for a program that does
not fit, a LoadError after which no cycle runs (R233). The loader touches no register, FL or PC. -/
def State.loadProgram (bytes : List Byte) (s : State) : Option State :=
  match loadFrom 0 bytes s with
  | .ok t => some t
  | .error _ => none

/-- Reset, load and start: the state the first cycle begins in (R270), or none. -/
def boot (c : Config) (program : List Byte) : Option State := (State.resetWith c).loadProgram program

/-- The host raises its halt request; it may do so between any two cycles (R101, R277). -/
def State.requestHalt (s : State) : State := s.setHaltRequest true

/-- The status output: the run state and the fault record (R9, R32). -/
structure Status where
  run : RunState
  fault : FaultRecord
  deriving DecidableEq, Repr

def State.status (s : State) : Status := { run := s.run, fault := s.fault }

/-- What the trace tap shows of one cycle (R235). -/
structure TraceLine where
  pc : Nat
  opcode : Byte
  operandA : Operand
  operandB : Operand
  regs : Vector Byte 8
  deriving DecidableEq, Repr

/-- The trace tap: after the fetch of the cycle that starts in `s`; none where no fetch completes. -/
def State.traceTap (s : State) : Option TraceLine :=
  match s.run with
  | .halted => none
  | .running =>
    if s.haltRequest then none
    else
      match fetch s with
      | .raised _ _ _ => none
      | .ready t =>
        some { pc := t.pc, opcode := t.ir, operandA := t.latchA, operandB := t.latchB, regs := t.regs }

end Sys2Proof.Machine
end

