-- ==== Sys2Proof/Safety.lean ====
section
/-! DEFINITION. The terms statements use: how a run ends, the invariant, what stays the same, and how a condition stops
an instruction. -/

namespace Sys2Proof.Machine

/-! ### How a run ends (R116) -/

/-- The faulted stop: Halted, the fault record filled. A run that never gets here is safe. -/
def State.faulted (s : State) : Bool := s.run == .halted && s.fault.cause != .noCondition

/-- A clean halt by HLT or a host halt: Halted, the fault record empty. The spec tells the two apart only by whether the
host requested a halt. -/
def State.haltedCleanly (s : State) : Bool := s.run == .halted && s.fault.cause == .noCondition

/-! ### The invariant -/

/-- The memory is canonical (so every listed address exists), PC is 0 to 259 (R25), and the fault record is empty unless
the core is in the faulted stop it describes (R32, R231, R236). -/
abbrev State.Inv (s : State) : Prop :=
  s.mem.wf = true ∧ s.pc ≤ 259 ∧
    (s.fault = FaultRecord.empty ∨ (s.run = .halted ∧ s.fault.cause ≠ .noCondition ∧ s.fault.pc = s.pc))

/-! ### What stays the same -/

/-- Every register but the named ones. -/
abbrev SameRegsBut (ks : List (Fin 8)) (s t : State) : Prop := ∀ k : Fin 8, k ∉ ks → t.reg k = s.reg k

/-- Every byte of memory. -/
def SameMem (s t : State) : Prop := ∀ addr : Nat, t.mem.read addr = s.mem.read addr

/-- Everything but the registers, PC, FL, memory and the output. -/
abbrev SameSystem (s t : State) : Prop :=
  t.run = s.run ∧ t.fault = s.fault ∧ t.ir = s.ir ∧ t.latchA = s.latchA ∧ t.latchB = s.latchB ∧
    t.haltRequest = s.haltRequest ∧ t.params = s.params

/-- The address an instruction stores to: PUSH and CALL store one byte at the decremented SP, from an SP that is not 0;
no other instruction stores (R52). -/
def storedAddress (i : Instr) (s : State) : Option Nat :=
  match i with
  | .push _ | .call _ => if s.sp = 0 then none else some (s.sp - 1).toNat
  | .hlt | .ret | .pop _ | .prn _ | .jmp _ | .jeq _ | .jne _ | .ldi _ _ | .add _ _ | .mul _ _ | .mod _ _ | .cmp _ _
  | .or _ _ | .shl _ _ | .shr _ _ => none

/-- The operand byte that names a register (R84). -/
def regOperand (k : Fin 8) : Operand := .byte (BitVec.ofNat 8 k.val)

/-- An instruction's destination registers: the register operand_a names for LDI, POP and the ALU operations but CMP, and SP for
the stack instructions (R21, R22). -/
def writesReg (i : Instr) (k : Fin 8) : Prop :=
  match i with
  | .ldi a _ | .add a _ | .mul a _ | .mod a _ | .or a _ | .shl a _ | .shr a _ => a = regOperand k
  | .pop a => a = regOperand k ∨ k = spIndex
  | .push _ | .call _ | .ret => k = spIndex
  | .hlt | .prn _ | .jmp _ | .jeq _ | .jne _ | .cmp _ _ => False

/-! ### How a condition stops an instruction -/

/-- The faulted stop spelled out: the run state and the four fields of the fault record, nothing else (R231, R236). -/
def faultedStop (s : State) (cause : Cause) (opcode : Option Byte) (info : Option Nat) : State :=
  { s with run := .halted, fault := { cause := cause, pc := s.pc, opcode := opcode, info := info } }

/-- The outcome raises the condition before any write: Halted with its cause, and registers, FL, memory, output and PC as
before. -/
def RaisesBeforeAnyWrite (o : StepOutcome) (s : State) (cause : Cause) : Prop :=
  ∃ t : State, o = .next t ∧ t.run = .halted ∧ t.fault.cause = cause ∧ t.regs = s.regs ∧ t.fl = s.fl ∧ t.mem = s.mem ∧
    t.output = s.output ∧ t.pc = s.pc

/-- A cycle will fetch: Running, with no halt request pending (R100, R101). -/
abbrev State.fetches (s : State) : Prop := s.run = .running ∧ s.haltRequest = false

/-- The seventeen opcode bytes of R80. -/
def knownOpcodes : List Byte :=
  [0x01, 0x11, 0x45, 0x46, 0x47, 0x50, 0x54, 0x55, 0x56, 0x82, 0xA0, 0xA2, 0xA4, 0xA7, 0xAA, 0xAC, 0xAD]

end Sys2Proof.Machine
end

