-- ==== Sys2Proof/Certificates/Slice0/Obligations.lean ====
section
/-! DEFINITION. The statements for the provers. Where a docstring says "the spec's decision", the clause rests on a
choice the spec marks as its own; where it names a log entry, on the model's. -/

open Sys2Proof Sys2Proof.Machine

/-! ### Encoding -/

/-- 30_encoding.md sections 1, 2 and 4: every well-formed instruction, at every operand value, is read back from its bytes,
whatever bytes follow (the byte values are the spec's decision D1). -/
def Obligations.DecodeOfEncodeIsIdentity : Prop :=
  ∀ (i : Instr) (rest : List Byte), WellFormed i → decodeBytes (encode i ++ rest) = .ok i

/-- 30_encoding.md sections 1, 2 and 4, the other direction: bytes that decode to a well-formed instruction begin with its
encoding, so no two encodings share an instruction and no operand bit is dropped. -/
def Obligations.DecodedBytesBeginWithEncoding : Prop :=
  ∀ (bytes : List Byte) (i : Instr), decodeBytes bytes = .ok i → WellFormed i →
    ∃ rest : List Byte, bytes = encode i ++ rest

/-- The words of the spec's own examples (R160, R131, R134, R137, R182, R183, R200, R162; decision D1). -/
def Obligations.SpecWordsDecode : Prop :=
  decodeBytes [0x82, 0x00, 0x08] = .ok (.ldi (.byte 0) (.byte 8)) ∧
  decodeBytes [0xA0, 0x00, 0x01] = .ok (.add (.byte 0) (.byte 1)) ∧
  decodeBytes [0xA4, 0x00, 0x01] = .ok (.mod (.byte 0) (.byte 1)) ∧
  decodeBytes [0xA7, 0x02, 0x02] = .ok (.cmp (.byte 2) (.byte 2)) ∧
  decodeBytes [0x45, 0x00] = .ok (.push (.byte 0)) ∧
  decodeBytes [0x46, 0x02] = .ok (.pop (.byte 2)) ∧
  decodeBytes [0x50, 0x02] = .ok (.call (.byte 2)) ∧
  decodeBytes [0x01] = .ok .hlt

/-- 30_encoding.md section 4 (decisions D1, D9, D10): a byte decodes to an instruction exactly when it is one of the seventeen,
and the other 239 fall in three classes by bits 5 and 4, with 121, 59 and 59 members. -/
def Obligations.EveryOpcodeByteClassified : Prop :=
  (∀ (op : Byte) (a b : Operand), (∃ i, decode op a b = .ok i) ↔ op ∈ knownOpcodes) ∧
  (∀ (op : Byte) (a b : Operand), op ∉ knownOpcodes → decode op a b = .error
    (if op.getLsbD 5 then .alu op else if op.getLsbD 4 then .branching op else .nonBranching op)) ∧
  (((List.range 256).map (BitVec.ofNat 8)).filter fun op => op ∉ knownOpcodes ∧ op.getLsbD 5 = true).length = 121 ∧
  (((List.range 256).map (BitVec.ofNat 8)).filter fun op =>
    op ∉ knownOpcodes ∧ op.getLsbD 5 = false ∧ op.getLsbD 4 = true).length = 59 ∧
  (((List.range 256).map (BitVec.ofNat 8)).filter fun op =>
    op ∉ knownOpcodes ∧ op.getLsbD 5 = false ∧ op.getLsbD 4 = false).length = 59

/-- 30_encoding.md sections 1 and 4: bits 7:6 of each opcode count its operands, bit 5 is set for the seven ALU operations alone,
and bit 4 for CALL, RET, JMP, JEQ and JNE alone. The opcode bytes are the spec's decision D1 (log 1). -/
def Obligations.OpcodeFieldsMatchInstruction : Prop :=
  ∀ i : Instr,
    (match i with
      | .hlt | .ret => i.opcode.toNat / 64 = 0
      | .push _ | .pop _ | .prn _ | .call _ | .jmp _ | .jeq _ | .jne _ => i.opcode.toNat / 64 = 1
      | .ldi _ _ | .add _ _ | .mul _ _ | .mod _ _ | .cmp _ _ | .or _ _ | .shl _ _ | .shr _ _ =>
        i.opcode.toNat / 64 = 2) ∧
    (match i with
      | .add _ _ | .mul _ _ | .mod _ _ | .cmp _ _ | .or _ _ | .shl _ _ | .shr _ _ => i.opcode.getLsbD 5 = true
      | .hlt | .ret | .push _ | .pop _ | .prn _ | .call _ | .jmp _ | .jeq _ | .jne _ | .ldi _ _ =>
        i.opcode.getLsbD 5 = false) ∧
    (match i with
      | .call _ | .ret | .jmp _ | .jeq _ | .jne _ => i.opcode.getLsbD 4 = true
      | .hlt | .push _ | .pop _ | .prn _ | .ldi _ _ | .add _ _ | .mul _ _ | .mod _ _ | .cmp _ _ | .or _ _
      | .shl _ _ | .shr _ _ => i.opcode.getLsbD 4 = false)

/-! ### Reset, load and the state -/

/-- 70_reset_and_hazards.md section 1, 10_state.md section 8: what reset leaves for every value of the parameters (PC = 0 is the
spec's decision D4). -/
def Obligations.ResetLeavesTheSpecValues : Prop :=
  ∀ c : Config,
    (State.resetWith c).sp = 0xF4 ∧ (State.resetWith c).pc = 0 ∧ (State.resetWith c).run = .running ∧
    (State.resetWith c).fault.cause.code = 0 ∧ (State.resetWith c).output = [] ∧
    (∀ j : Fin 7, (State.resetWith c).reg j.castSucc = c.resetRegs[j]) ∧ (State.resetWith c).fl = c.resetFL ∧
    (∀ j : Fin 256, (State.resetWith c).mem.read j.val = c.mem0[j]) ∧ (State.resetWith c).params = c.params

/-- 10_state.md section 8: the model's own reset state has the values the spec gives, of which PC = 0 is the spec's decision
D4 (log 14) and the cause code 0 its decision D13; it is the reset of the parameters the model names, zeros and the spec's
defaults (DESIGN CHOICE, log 2, 3, 4 and 6). -/
def Obligations.ResetStateIsTheNamedReset : Prop :=
  State.reset.sp = 0xF4 ∧ State.reset.pc = 0 ∧ State.reset.run = .running ∧ State.reset.fault.cause.code = 0 ∧
  State.reset.output = [] ∧ State.resetWith Config.default = State.reset

/-- 70_reset_and_hazards.md section 1 (decisions D7, D27): the loader puts the program at address 0 in file order and leaves the rest of
the state; a program over 256 bytes gives no state. -/
def Obligations.LoaderWritesProgramFromZero : Prop :=
  (∀ (s : State) (bytes : List Byte), bytes.length ≤ 256 → ∃ t, s.loadProgram bytes = some t ∧
    (∀ j : Nat, ∀ h : j < bytes.length, t.mem.read j = bytes[j]) ∧
    (∀ addr : Nat, bytes.length ≤ addr → t.mem.read addr = s.mem.read addr) ∧
    t.regs = s.regs ∧ t.fl = s.fl ∧ t.pc = s.pc ∧ t.output = s.output ∧ SameSystem s t) ∧
  (∀ (s : State) (bytes : List Byte), 256 < bytes.length → s.loadProgram bytes = none)

/-- R51: a read gives the byte stored; a write stores the byte at its address and changes nothing else; both raise
AddressOutOfRange above 255. -/
def Obligations.MemoryAccessContract : Prop :=
  (∀ (s : State) (addr : Nat), addr ≤ 255 → memRead s addr = .ok (s.mem.read addr)) ∧
  (∀ (s : State) (addr : Nat) (v : Byte), addr ≤ 255 → ∃ t, memWrite s addr v = .ok t ∧ memRead t addr = .ok v ∧
    (∀ other : Nat, other ≠ addr → t.mem.read other = s.mem.read other) ∧
    t.regs = s.regs ∧ t.fl = s.fl ∧ t.pc = s.pc ∧ t.output = s.output ∧ SameSystem s t) ∧
  (∀ (s : State) (addr : Nat) (v : Byte), 255 < addr →
    memRead s addr = .error (.addressOutOfRange addr) ∧ memWrite s addr v = .error (.addressOutOfRange addr))

/-- 10_state.md section 1: SP and register 7 are one storage, and a register write is read back and leaves the other seven. -/
def Obligations.StackPointerIsRegisterSeven : Prop :=
  ∀ (s : State) (v : Byte) (k j : Fin 8),
    (s.setReg 7 v).sp = v ∧ (s.setSp v).reg 7 = v ∧ s.sp = s.reg 7 ∧
    (s.setReg k v).reg k = v ∧ (j ≠ k → (s.setReg k v).reg j = s.reg j)

/-! ### The cycle -/

/-- 40_cycle.md section 5: with the three bytes at PC in memory, a step is the execute phase of the instruction they decode
to, in the state whose IR and latches hold them. -/
def Obligations.StepRunsTheDecodedInstruction : Prop :=
  ∀ (s : State) (i : Instr), s.fetches → s.pc + 2 ≤ 255 →
    decodeBytes [s.mem.read s.pc, s.mem.read (s.pc + 1), s.mem.read (s.pc + 2)] = .ok i →
    step s = exec i { s with
      ir := s.mem.read s.pc, latchA := .byte (s.mem.read (s.pc + 1)), latchB := .byte (s.mem.read (s.pc + 2)) }

/-- 40_cycle.md section 2 (the spec's decision D8): with strictOperandFetch false an instruction at 254 or 255 runs on the bytes
there are; its missing operands hold no value. -/
def Obligations.LenientFetchRunsAtTheTop : Prop :=
  ∀ (s : State) (i : Instr), s.fetches → s.params.strictOperandFetch = false →
    (s.pc = 254 → decodeBytes [s.mem.read 254, s.mem.read 255] = .ok i →
      step s = exec i { s with ir := s.mem.read 254, latchA := .byte (s.mem.read 255), latchB := .missing }) ∧
    (s.pc = 255 → decodeBytes [s.mem.read 255] = .ok i →
      step s = exec i { s with ir := s.mem.read 255, latchA := .missing, latchB := .missing })

/-- 40_cycle.md section 2 (the spec's decision D8): with strictOperandFetch true every cycle at 254 or 255 stops with
AddressOutOfRange(256), whatever the opcode. That IR and latch A hold what was fetched is the model's choice (log 5). -/
def Obligations.StrictFetchFaultsAtTheTop : Prop :=
  ∀ s : State, s.fetches → s.params.strictOperandFetch = true →
    (s.pc = 254 → step s = .next (faultedStop
      { s with ir := s.mem.read 254, latchA := .byte (s.mem.read 255) } .addressOutOfRange (some (s.mem.read 254)) (some 256))) ∧
    (s.pc = 255 → step s = .next (faultedStop { s with ir := s.mem.read 255 }
      .addressOutOfRange (some (s.mem.read 255)) (some 256)))

/-- 40_cycle.md section 2 and 60_exceptions.md section 3: a step from a PC up to 255 ends with the opcode byte at PC in IR, also where
the operand fetch raises (that IR keeps it after the step is the model's choice, log 5); from a PC above 255 it is the faulted
stop with AddressOutOfRange(PC), no opcode, and nothing else changed (the spec's decisions D3, D13, D14; log 19). -/
def Obligations.OpcodeFetchReadsIrOrFaults : Prop :=
  (∀ s : State, s.fetches → s.pc ≤ 255 → ∃ t, step s = .next t ∧ t.ir = s.mem.read s.pc) ∧
  (∀ s : State, s.fetches → 255 < s.pc → step s = .next (faultedStop s .addressOutOfRange none (some s.pc)))

/-- 40_cycle.md section 1 and 60_exceptions.md section 8: Halted is terminal, for any number of steps. That a step answers the
same state there is the model's choice (log 8). -/
def Obligations.HaltedCoreKeepsItsState : Prop :=
  ∀ (n : Nat) (s : State), s.run = .halted → core.run n s = .next s

/-- 40_cycle.md section 1 (the spec's decision D21): a pending halt request is observed before the fetch and only halts, even with a
PC no fetch could read. -/
def Obligations.HaltRequestStopsBeforeTheFetch : Prop :=
  ∀ s : State, s.run = .running → step s.requestHalt = .next { s with haltRequest := true, run := .halted }

/-- 40_cycle.md section 6 (the spec's decisions D1, D10, D13, D14): an unknown opcode with bit 5 set raises UnsupportedOperation,
whatever bit 4 is and whatever its operand bytes are. Beside the stop only IR and the latches change, and hold what was fetched
(log 5). -/
def Obligations.UnknownAluOpcodeRaises : Prop :=
  ∀ s t : State, s.fetches → fetch s = .ready t → s.mem.read s.pc ∉ knownOpcodes → (s.mem.read s.pc).getLsbD 5 = true →
    step s = .next (faultedStop { s with ir := t.ir, latchA := t.latchA, latchB := t.latchB } .unsupportedOperation
      (some (s.mem.read s.pc)) none)

/-- 40_cycle.md section 6: an unknown opcode with bit 5 clear and bit 4 set only advances PC, by its operand count plus 1.
IR and the latches, which hold no architectural value between cycles, are the fetched ones (log 5). Which bytes are unknown is the
spec's decision D1 (log 1). -/
def Obligations.UnknownBranchingOpcodeSkips : Prop :=
  ∀ s t : State, s.fetches → fetch s = .ready t → s.mem.read s.pc ∉ knownOpcodes → (s.mem.read s.pc).getLsbD 5 = false →
    (s.mem.read s.pc).getLsbD 4 = true →
    step s = .next { s with
      pc := s.pc + (s.mem.read s.pc).toNat / 64 + 1, ir := t.ir, latchA := t.latchA, latchB := t.latchB }

/-- 40_cycle.md section 6 and 60_exceptions.md section 3 (the spec's decisions D1, D9, D11, D13, D14; log 19): an unknown opcode with bits
5 and 4 clear skips or raises UnsupportedOperation, by the parameter. Beside that only IR and the latches change, and hold what
was fetched (log 5). -/
def Obligations.UnknownPlainOpcodeFollowsPolicy : Prop :=
  ∀ s t : State, s.fetches → fetch s = .ready t → s.mem.read s.pc ∉ knownOpcodes → (s.mem.read s.pc).getLsbD 5 = false →
    (s.mem.read s.pc).getLsbD 4 = false →
    (s.params.unknownOpcodePolicy = .skip → step s = .next { s with
      pc := s.pc + (s.mem.read s.pc).toNat / 64 + 1, ir := t.ir, latchA := t.latchA, latchB := t.latchB }) ∧
    (s.params.unknownOpcodePolicy = .fault →
      step s = .next (faultedStop { s with ir := t.ir, latchA := t.latchA, latchB := t.latchB } .unsupportedOperation
        (some (s.mem.read s.pc)) none))

/-- 60_exceptions.md section 3 (the spec's decision D29): the trace tap shows the fetched bytes with PC and the registers as
they are before the instruction executes; with strictOperandFetch false an operand byte above address 255 shows no value (the spec's
decision D8). There is no line in Halted, under a halt request, or where the fetch raises (DEDUCED, log 16). -/
def Obligations.TraceTapShowsTheFetchedCycle : Prop :=
  (∀ s : State, s.fetches → s.pc + 2 ≤ 255 → s.traceTap = some
    { pc := s.pc, opcode := s.mem.read s.pc, operandA := .byte (s.mem.read (s.pc + 1)),
      operandB := .byte (s.mem.read (s.pc + 2)), regs := s.regs }) ∧
  (∀ s : State, s.fetches → s.params.strictOperandFetch = false →
    (s.pc = 254 → s.traceTap = some
      { pc := 254, opcode := s.mem.read 254, operandA := .byte (s.mem.read 255), operandB := .missing, regs := s.regs }) ∧
    (s.pc = 255 → s.traceTap = some
      { pc := 255, opcode := s.mem.read 255, operandA := .missing, operandB := .missing, regs := s.regs })) ∧
  (∀ s : State, s.fetches → (255 < s.pc ∨ (s.params.strictOperandFetch = true ∧ 253 < s.pc)) → s.traceTap = none) ∧
  (∀ s : State, s.run = .halted ∨ s.haltRequest = true → s.traceTap = none)

/-! ### Data movement, output and halt -/

/-- 42_data_io.md, LDI. The opcode byte is the spec's decision D1 (log 1). -/
def Obligations.LdiWritesTheImmediate : Prop :=
  (∀ a i : Byte, decodeBytes [0x82, a, i] = .ok (.ldi (.byte a) (.byte i))) ∧
  (∀ (s : State) (k : Fin 8) (v : Byte), ∃ t, exec (.ldi (regOperand k) (.byte v)) s = .next t ∧
    t.reg k = v ∧ t.pc = s.pc + 3 ∧ SameRegsBut [k] s t ∧ t.fl = s.fl ∧ SameMem s t ∧ t.output = s.output ∧
    SameSystem s t) ∧
  (∀ (s : State) (a i : Byte), 8 ≤ a.toNat →
    RaisesBeforeAnyWrite (exec (.ldi (.byte a) (.byte i)) s) s .registerOutOfRange)

/-- 42_data_io.md, PRN. The opcode byte is the spec's decision D1 (log 1). -/
def Obligations.PrnEmitsTheRegister : Prop :=
  (∀ a : Byte, decodeBytes [0x47, a] = .ok (.prn (.byte a))) ∧
  (∀ (s : State) (k : Fin 8), ∃ t, exec (.prn (regOperand k)) s = .next t ∧
    t.output = s.output ++ [s.reg k] ∧ t.pc = s.pc + 2 ∧ t.regs = s.regs ∧ t.fl = s.fl ∧ SameMem s t ∧ SameSystem s t) ∧
  (∀ (s : State) (a : Byte), 8 ≤ a.toNat → RaisesBeforeAnyWrite (exec (.prn (.byte a)) s) s .registerOutOfRange)

/-- 42_data_io.md (HLT): Halted, and PC one past the HLT, 256 included; nothing else changes. -/
def Obligations.HltHaltsPastItself : Prop :=
  ∀ s : State, exec .hlt s = .next { s with run := .halted, pc := s.pc + 1 }

/-! ### ALU -/

/-- 41_alu.md section 2, ADD. The opcode byte is the spec's decision D1 (log 1). -/
def Obligations.AddWritesTheSumModulo256 : Prop :=
  (∀ a b : Byte, decodeBytes [0xA0, a, b] = .ok (.add (.byte a) (.byte b))) ∧
  (∀ (s : State) (ka kb : Fin 8), ∃ t, exec (.add (regOperand ka) (regOperand kb)) s = .next t ∧
    (t.reg ka).toNat = ((s.reg ka).toNat + (s.reg kb).toNat) % 256 ∧ t.pc = s.pc + 3 ∧ SameRegsBut [ka] s t ∧
    t.fl = s.fl ∧ SameMem s t ∧ t.output = s.output ∧ SameSystem s t) ∧
  (∀ (s : State) (a b : Byte), 8 ≤ a.toNat ∨ 8 ≤ b.toNat →
    RaisesBeforeAnyWrite (exec (.add (.byte a) (.byte b)) s) s .registerOutOfRange)

/-- 41_alu.md section 2, MUL. The opcode byte is the spec's decision D1 (log 1). -/
def Obligations.MulWritesTheProductModulo256 : Prop :=
  (∀ a b : Byte, decodeBytes [0xA2, a, b] = .ok (.mul (.byte a) (.byte b))) ∧
  (∀ (s : State) (ka kb : Fin 8), ∃ t, exec (.mul (regOperand ka) (regOperand kb)) s = .next t ∧
    (t.reg ka).toNat = ((s.reg ka).toNat * (s.reg kb).toNat) % 256 ∧ t.pc = s.pc + 3 ∧ SameRegsBut [ka] s t ∧
    t.fl = s.fl ∧ SameMem s t ∧ t.output = s.output ∧ SameSystem s t) ∧
  (∀ (s : State) (a b : Byte), 8 ≤ a.toNat ∨ 8 ≤ b.toNat →
    RaisesBeforeAnyWrite (exec (.mul (.byte a) (.byte b)) s) s .registerOutOfRange)

/-- 41_alu.md section 2, OR: each bit of the result is the or of the operands' bits. The opcode byte is the spec's decision D1 (log 1). -/
def Obligations.OrWritesTheBitwiseOr : Prop :=
  (∀ a b : Byte, decodeBytes [0xAA, a, b] = .ok (.or (.byte a) (.byte b))) ∧
  (∀ (s : State) (ka kb : Fin 8), ∃ t, exec (.or (regOperand ka) (regOperand kb)) s = .next t ∧
    (∀ j : Fin 8, (t.reg ka)[j] = ((s.reg ka)[j] || (s.reg kb)[j])) ∧ t.pc = s.pc + 3 ∧ SameRegsBut [ka] s t ∧
    t.fl = s.fl ∧ SameMem s t ∧ t.output = s.output ∧ SameSystem s t) ∧
  (∀ (s : State) (a b : Byte), 8 ≤ a.toNat ∨ 8 ≤ b.toNat →
    RaisesBeforeAnyWrite (exec (.or (.byte a) (.byte b)) s) s .registerOutOfRange)

/-- 41_alu.md section 2, MOD: RegisterOutOfRange first, then DivisionByZero; each stops the machine with no register written.
The opcode byte is the spec's decision D1 (log 1). -/
def Obligations.ModWritesTheRemainder : Prop :=
  (∀ a b : Byte, decodeBytes [0xA4, a, b] = .ok (.mod (.byte a) (.byte b))) ∧
  (∀ (s : State) (ka kb : Fin 8), s.reg kb ≠ 0 → ∃ t, exec (.mod (regOperand ka) (regOperand kb)) s = .next t ∧
    (t.reg ka).toNat = (s.reg ka).toNat % (s.reg kb).toNat ∧ t.pc = s.pc + 3 ∧ SameRegsBut [ka] s t ∧
    t.fl = s.fl ∧ SameMem s t ∧ t.output = s.output ∧ SameSystem s t) ∧
  (∀ (s : State) (ka kb : Fin 8), s.reg kb = 0 → ∃ t, exec (.mod (regOperand ka) (regOperand kb)) s = .next t ∧
    t.run = .halted ∧ t.fault.cause = .divisionByZero ∧ t.regs = s.regs ∧ t.fl = s.fl) ∧
  (∀ (s : State) (a b : Byte), 8 ≤ a.toNat ∨ 8 ≤ b.toNat → ∃ t, exec (.mod (.byte a) (.byte b)) s = .next t ∧
    t.run = .halted ∧ t.fault.cause = .registerOutOfRange ∧ t.regs = s.regs ∧ t.fl = s.fl)

/-- 41_alu.md section 2 (SHL, derived by the spec from its notation R11): the exact shift by the whole byte, its low eight bits.
The opcode byte is the spec's decision D1 (log 1). -/
def Obligations.ShlShiftsByTheWholeByte : Prop :=
  (∀ a b : Byte, decodeBytes [0xAC, a, b] = .ok (.shl (.byte a) (.byte b))) ∧
  (∀ (s : State) (ka kb : Fin 8), ∃ t, exec (.shl (regOperand ka) (regOperand kb)) s = .next t ∧
    (t.reg ka).toNat = ((s.reg ka).toNat * 2 ^ (s.reg kb).toNat) % 256 ∧
    (8 ≤ (s.reg kb).toNat → t.reg ka = 0) ∧ t.pc = s.pc + 3 ∧ SameRegsBut [ka] s t ∧
    t.fl = s.fl ∧ SameMem s t ∧ t.output = s.output ∧ SameSystem s t) ∧
  (∀ (s : State) (a b : Byte), 8 ≤ a.toNat ∨ 8 ≤ b.toNat →
    RaisesBeforeAnyWrite (exec (.shl (.byte a) (.byte b)) s) s .registerOutOfRange)

/-- 41_alu.md section 2 (SHR, derived by the spec from its notation R11): the logical shift by the whole byte.
The opcode byte is the spec's decision D1 (log 1). -/
def Obligations.ShrShiftsByTheWholeByte : Prop :=
  (∀ a b : Byte, decodeBytes [0xAD, a, b] = .ok (.shr (.byte a) (.byte b))) ∧
  (∀ (s : State) (ka kb : Fin 8), ∃ t, exec (.shr (regOperand ka) (regOperand kb)) s = .next t ∧
    (t.reg ka).toNat = (s.reg ka).toNat / 2 ^ (s.reg kb).toNat ∧
    (8 ≤ (s.reg kb).toNat → t.reg ka = 0) ∧ t.pc = s.pc + 3 ∧ SameRegsBut [ka] s t ∧
    t.fl = s.fl ∧ SameMem s t ∧ t.output = s.output ∧ SameSystem s t) ∧
  (∀ (s : State) (a b : Byte), 8 ≤ a.toNat ∨ 8 ≤ b.toNat →
    RaisesBeforeAnyWrite (exec (.shr (.byte a) (.byte b)) s) s .registerOutOfRange)

/-- 41_alu.md section 2, CMP: exactly one of E, G and L, the comparison unsigned, the previous FL without effect; no register written.
The opcode byte is the spec's decision D1 (log 1). -/
def Obligations.CmpSetsExactlyOneFlag : Prop :=
  (∀ a b : Byte, decodeBytes [0xA7, a, b] = .ok (.cmp (.byte a) (.byte b))) ∧
  (∀ (s : State) (ka kb : Fin 8), ∃ t, exec (.cmp (regOperand ka) (regOperand kb)) s = .next t ∧
    t.fl = (if s.reg ka = s.reg kb then 0b001 else if (s.reg kb).toNat < (s.reg ka).toNat then 0b010 else 0b100) ∧
    t.pc = s.pc + 3 ∧ t.regs = s.regs ∧ SameMem s t ∧ t.output = s.output ∧ SameSystem s t) ∧
  (∀ (s : State) (a b : Byte), 8 ≤ a.toNat ∨ 8 ≤ b.toNat →
    RaisesBeforeAnyWrite (exec (.cmp (.byte a) (.byte b)) s) s .registerOutOfRange)

/-- 41_alu.md section 3 and 60_exceptions.md sections 1 and 3 (the spec's decisions D13, D14, D15): the whole faulted stop of an ALU
operation with an index above 7, index a reported before index b, before any DivisionByZero. -/
def Obligations.AluIndexAboveSevenStopsPrecisely : Prop :=
  ∀ (s : State) (a b : Byte), 8 ≤ a.toNat ∨ 8 ≤ b.toNat →
    let stop := fun op : Byte => Host.Outcome.next (faultedStop s .registerOutOfRange (some op)
      (some (if 8 ≤ a.toNat then a.toNat else b.toNat)))
    exec (.add (.byte a) (.byte b)) s = stop 0xA0 ∧ exec (.mul (.byte a) (.byte b)) s = stop 0xA2 ∧
    exec (.mod (.byte a) (.byte b)) s = stop 0xA4 ∧ exec (.cmp (.byte a) (.byte b)) s = stop 0xA7 ∧
    exec (.or (.byte a) (.byte b)) s = stop 0xAA ∧ exec (.shl (.byte a) (.byte b)) s = stop 0xAC ∧
    exec (.shr (.byte a) (.byte b)) s = stop 0xAD

/-- 10_state.md section 1 and 60_exceptions.md sections 1, 3 and 5 (the spec's decisions D13, D14, D15, D19): the same for the other
instructions that access operand a's register, before any stack check; JEQ and JNE only when they branch. -/
def Obligations.IndexAboveSevenStopsPrecisely : Prop :=
  ∀ (s : State) (a i : Byte), 8 ≤ a.toNat →
    let stop := fun op : Byte => Host.Outcome.next (faultedStop s .registerOutOfRange (some op) (some a.toNat))
    exec (.ldi (.byte a) (.byte i)) s = stop 0x82 ∧ exec (.prn (.byte a)) s = stop 0x47 ∧
    exec (.push (.byte a)) s = stop 0x45 ∧ exec (.pop (.byte a)) s = stop 0x46 ∧
    exec (.call (.byte a)) s = stop 0x50 ∧ exec (.jmp (.byte a)) s = stop 0x54 ∧
    (s.fl[0] = true → exec (.jeq (.byte a)) s = stop 0x55) ∧ (s.fl[0] = false → exec (.jne (.byte a)) s = stop 0x56)

/-- 41_alu.md section 2 and 60_exceptions.md section 3 (the spec's decisions D1, D13, D14): the whole faulted stop of MOD by
zero. -/
def Obligations.ModByZeroStopsPrecisely : Prop :=
  ∀ (s : State) (ka kb : Fin 8), s.reg kb = 0 →
    exec (.mod (regOperand ka) (regOperand kb)) s = .next (faultedStop s .divisionByZero (some 0xA4) none)

/-- 40_cycle.md sections 2 and 5, 60_exceptions.md section 3 (the spec's decisions D8, D13, D14; the opcode bytes in the record are its
decision D1, log 1): an operand that holds no value raises AddressOutOfRange with its address where
the instruction consults it. Operand a is consulted first, and an ALU operation checks its index before it consults operand b
(log 11); that LDI consults its immediate before it checks the index is the model's reading (log 10), and that it
consults operand a before its immediate is the model's choice (log 23). -/
def Obligations.MissingOperandRaisesWhereConsulted : Prop :=
  ∀ (s : State) (b : Operand) (a : Byte) (k : Fin 8),
    let stop := fun (op : Byte) (addr : Nat) =>
      Host.Outcome.next (faultedStop s .addressOutOfRange (some op) (some addr))
    (exec (.prn .missing) s = stop 0x47 (s.pc + 1) ∧ exec (.push .missing) s = stop 0x45 (s.pc + 1) ∧
      exec (.pop .missing) s = stop 0x46 (s.pc + 1) ∧ exec (.call .missing) s = stop 0x50 (s.pc + 1) ∧
      exec (.jmp .missing) s = stop 0x54 (s.pc + 1) ∧
      (s.fl[0] = true → exec (.jeq .missing) s = stop 0x55 (s.pc + 1)) ∧
      (s.fl[0] = false → exec (.jne .missing) s = stop 0x56 (s.pc + 1))) ∧
    (exec (.ldi .missing b) s = stop 0x82 (s.pc + 1) ∧ exec (.add .missing b) s = stop 0xA0 (s.pc + 1) ∧
      exec (.mul .missing b) s = stop 0xA2 (s.pc + 1) ∧ exec (.mod .missing b) s = stop 0xA4 (s.pc + 1) ∧
      exec (.cmp .missing b) s = stop 0xA7 (s.pc + 1) ∧ exec (.or .missing b) s = stop 0xAA (s.pc + 1) ∧
      exec (.shl .missing b) s = stop 0xAC (s.pc + 1) ∧ exec (.shr .missing b) s = stop 0xAD (s.pc + 1)) ∧
    (exec (.ldi (.byte a) .missing) s = stop 0x82 (s.pc + 2) ∧
      exec (.add (regOperand k) .missing) s = stop 0xA0 (s.pc + 2) ∧
      exec (.mul (regOperand k) .missing) s = stop 0xA2 (s.pc + 2) ∧
      exec (.mod (regOperand k) .missing) s = stop 0xA4 (s.pc + 2) ∧
      exec (.cmp (regOperand k) .missing) s = stop 0xA7 (s.pc + 2) ∧
      exec (.or (regOperand k) .missing) s = stop 0xAA (s.pc + 2) ∧
      exec (.shl (regOperand k) .missing) s = stop 0xAC (s.pc + 2) ∧
      exec (.shr (regOperand k) .missing) s = stop 0xAD (s.pc + 2))

/-- 41_alu.md section 1, 40_cycle.md section 2, 60_exceptions.md section 3 (the spec's decisions D8, D13, D14, D15; the opcode bytes in the
record are its decision D1, log 1): with operand a's index above 7 and operand b without a value, an ALU operation
reports the index, since it reads x[a] before it consults b: the model's reading of the spec's order (log 11). -/
def Obligations.AluChecksIndexBeforeConsultingB : Prop :=
  ∀ (s : State) (a : Byte), 8 ≤ a.toNat →
    let stop := fun op : Byte => Host.Outcome.next (faultedStop s .registerOutOfRange (some op) (some a.toNat))
    exec (.add (.byte a) .missing) s = stop 0xA0 ∧ exec (.mul (.byte a) .missing) s = stop 0xA2 ∧
    exec (.mod (.byte a) .missing) s = stop 0xA4 ∧ exec (.cmp (.byte a) .missing) s = stop 0xA7 ∧
    exec (.or (.byte a) .missing) s = stop 0xAA ∧ exec (.shl (.byte a) .missing) s = stop 0xAC ∧
    exec (.shr (.byte a) .missing) s = stop 0xAD

/-! ### Stack -/

/-- 43_stack.md sections 1 and 2, PUSH (the spec's decisions D1, D2, D16): the byte below SP takes the register's value, PUSH R7
the decremented SP; from SP = 0 it overflows with no state changed. -/
def Obligations.PushStoresBelowTheStackPointer : Prop :=
  (∀ a : Byte, decodeBytes [0x45, a] = .ok (.push (.byte a))) ∧
  (∀ (s : State) (k : Fin 8), s.sp ≠ 0 → ∃ t, exec (.push (regOperand k)) s = .next t ∧
    t.sp.toNat = s.sp.toNat - 1 ∧ t.mem.read (s.sp.toNat - 1) = (if k = 7 then s.sp - 1 else s.reg k) ∧
    (∀ addr : Nat, addr ≠ s.sp.toNat - 1 → t.mem.read addr = s.mem.read addr) ∧ t.pc = s.pc + 2 ∧
    SameRegsBut [7] s t ∧ t.fl = s.fl ∧ t.output = s.output ∧ SameSystem s t) ∧
  (∀ (s : State) (k : Fin 8), s.sp = 0 →
    exec (.push (regOperand k)) s = .next (faultedStop s .stackOverflow (some 0x45) none))

/-- 43_stack.md sections 1 and 2, POP into R0 to R6 (the spec's decisions D1, D2, D16): the register takes the byte at SP and SP goes up by
one; from SP at or above 0xF4 it underflows, into R7 too, with no state changed. -/
def Obligations.PopLoadsFromTheStackPointer : Prop :=
  (∀ a : Byte, decodeBytes [0x46, a] = .ok (.pop (.byte a))) ∧
  (∀ (s : State) (k : Fin 8), k ≠ 7 → s.sp.toNat < 0xF4 → ∃ t, exec (.pop (regOperand k)) s = .next t ∧
    t.reg k = s.mem.read s.sp.toNat ∧ t.sp.toNat = s.sp.toNat + 1 ∧ t.pc = s.pc + 2 ∧ SameRegsBut [k, 7] s t ∧
    SameMem s t ∧ t.fl = s.fl ∧ t.output = s.output ∧ SameSystem s t) ∧
  (∀ (s : State) (k : Fin 8), 0xF4 ≤ s.sp.toNat →
    exec (.pop (regOperand k)) s = .next (faultedStop s .stackUnderflow (some 0x46) none))

/-- 43_stack.md section 2, POP R7 (the spec's decisions D13, D14, D17; the opcode byte in the record is its
decision D1, log 1): SP ends as the popped byte plus one, and underflows where that would
exceed 0xF4. -/
def Obligations.PopIntoStackPointerAddsOne : Prop :=
  ∀ s : State, s.sp.toNat < 0xF4 →
    ((s.mem.read s.sp.toNat).toNat < 0xF4 → ∃ t, exec (.pop (regOperand 7)) s = .next t ∧
      t.sp.toNat = (s.mem.read s.sp.toNat).toNat + 1 ∧ t.pc = s.pc + 2 ∧ SameRegsBut [7] s t ∧ SameMem s t ∧
      t.fl = s.fl ∧ t.output = s.output ∧ SameSystem s t) ∧
    (0xF4 ≤ (s.mem.read s.sp.toNat).toNat →
      exec (.pop (regOperand 7)) s = .next (faultedStop s .stackUnderflow (some 0x46) none))

/-- R185: PUSH then POP to the same register, other than R7 and from an SP of 1 to 0xF4, restores the register and SP; and
pushed data and return addresses share one stack: RET after PUSH jumps to the pushed data, POP after CALL gets the return address. -/
def Obligations.PushThenPopRestores : Prop :=
  (∀ (s : State) (k : Fin 8), k ≠ 7 → s.sp ≠ 0 → s.sp.toNat ≤ 0xF4 →
    ∃ t u, exec (.push (regOperand k)) s = .next t ∧ exec (.pop (regOperand k)) t = .next u ∧
      u.reg k = s.reg k ∧ u.sp = s.sp ∧ SameRegsBut [] s u) ∧
  (∀ (s : State) (k : Fin 8), k ≠ 7 → s.sp ≠ 0 → s.sp.toNat ≤ 0xF4 →
    ∃ t u, exec (.push (regOperand k)) s = .next t ∧ exec .ret t = .next u ∧ u.pc = (s.reg k).toNat ∧ u.sp = s.sp) ∧
  (∀ (s : State) (k j : Fin 8), j ≠ 7 → s.pc ≤ 253 → s.sp ≠ 0 → s.sp.toNat ≤ 0xF4 →
    ∃ t u, exec (.call (regOperand k)) s = .next t ∧ exec (.pop (regOperand j)) t = .next u ∧
      (u.reg j).toNat = s.pc + 2 ∧ u.sp = s.sp)

/-! ### Control flow -/

/-- 44_control_flow.md section 1, CALL (the spec's decisions D1, D2, D16, D18): the return address goes below SP and PC to the register's
value, CALL R7 to the decremented SP; overflow is checked before a return address that does not fit in a byte. -/
def Obligations.CallPushesTheReturnAddress : Prop :=
  (∀ a : Byte, decodeBytes [0x50, a] = .ok (.call (.byte a))) ∧
  (∀ (s : State) (k : Fin 8), s.sp ≠ 0 → s.pc + 2 ≤ 255 → ∃ t, exec (.call (regOperand k)) s = .next t ∧
    t.sp.toNat = s.sp.toNat - 1 ∧ (t.mem.read (s.sp.toNat - 1)).toNat = s.pc + 2 ∧
    (∀ addr : Nat, addr ≠ s.sp.toNat - 1 → t.mem.read addr = s.mem.read addr) ∧
    t.pc = (if k = 7 then s.sp.toNat - 1 else (s.reg k).toNat) ∧
    SameRegsBut [7] s t ∧ t.fl = s.fl ∧ t.output = s.output ∧ SameSystem s t) ∧
  (∀ (s : State) (k : Fin 8), s.sp ≠ 0 → 255 < s.pc + 2 → exec (.call (regOperand k)) s =
    .next (faultedStop s .addressOutOfRange (some 0x50) (some (s.pc + 2)))) ∧
  (∀ (s : State) (k : Fin 8), s.sp = 0 →
    exec (.call (regOperand k)) s = .next (faultedStop s .stackOverflow (some 0x50) none))

/-- 44_control_flow.md section 1, RET. The opcode byte is the spec's decision D1 (log 1). -/
def Obligations.RetPopsTheProgramCounter : Prop :=
  decodeBytes [0x11] = .ok .ret ∧
  (∀ s : State, s.sp.toNat < 0xF4 → ∃ t, exec .ret s = .next t ∧ t.pc = (s.mem.read s.sp.toNat).toNat ∧
    t.sp.toNat = s.sp.toNat + 1 ∧ SameRegsBut [7] s t ∧ SameMem s t ∧ t.fl = s.fl ∧ t.output = s.output ∧
    SameSystem s t) ∧
  (∀ s : State, 0xF4 ≤ s.sp.toNat → RaisesBeforeAnyWrite (exec .ret s) s .stackUnderflow)

/-- 44_control_flow.md section 2, JMP. The opcode byte is the spec's decision D1 (log 1). -/
def Obligations.JmpGoesToTheRegister : Prop :=
  (∀ a : Byte, decodeBytes [0x54, a] = .ok (.jmp (.byte a))) ∧
  (∀ (s : State) (k : Fin 8), exec (.jmp (regOperand k)) s = .next { s with pc := (s.reg k).toNat }) ∧
  (∀ (s : State) (a : Byte), 8 ≤ a.toNat → RaisesBeforeAnyWrite (exec (.jmp (.byte a)) s) s .registerOutOfRange)

/-- 44_control_flow.md section 2, JEQ (the spec's decisions D1, D19): the branch is taken exactly when FL bit 0 is 1; not taken, PC goes
up by 2 whatever the operand is, an index above 7 or no value included. -/
def Obligations.JeqBranchesOnEqual : Prop :=
  (∀ a : Byte, decodeBytes [0x55, a] = .ok (.jeq (.byte a))) ∧
  (∀ (s : State) (k : Fin 8), s.fl[0] = true → exec (.jeq (regOperand k)) s = .next { s with pc := (s.reg k).toNat }) ∧
  (∀ (s : State) (a : Operand), s.fl[0] = false → exec (.jeq a) s = .next { s with pc := s.pc + 2 })

/-- 44_control_flow.md section 2, JNE (the spec's decisions D1, D19): as JEQ, taken exactly when FL bit 0 is 0. -/
def Obligations.JneBranchesOnNotEqual : Prop :=
  (∀ a : Byte, decodeBytes [0x56, a] = .ok (.jne (.byte a))) ∧
  (∀ (s : State) (k : Fin 8), s.fl[0] = false → exec (.jne (regOperand k)) s = .next { s with pc := (s.reg k).toNat }) ∧
  (∀ (s : State) (a : Operand), s.fl[0] = true → exec (.jne a) s = .next { s with pc := s.pc + 2 })

/-- 44_control_flow.md section 3: a RET that finds SP as its CALL left it, and the return address still in its cell, goes to the
instruction just after the CALL with SP as it was before it, whatever else the subroutine did. -/
def Obligations.CallThenRetResumes : Prop :=
  ∀ (s : State) (k : Fin 8), s.sp ≠ 0 → s.sp.toNat ≤ 0xF4 → s.pc + 2 ≤ 255 →
    ∃ t, exec (.call (regOperand k)) s = .next t ∧
      ∀ u : State, u.sp = t.sp → u.mem.read u.sp.toNat = t.mem.read t.sp.toNat →
        ∃ v, exec .ret u = .next v ∧ v.pc = s.pc + 2 ∧ v.sp = s.sp

/-! ### Frames: what an instruction leaves unchanged, for all seventeen -/

/-- 10_state.md section 1, 41_alu.md section 1, 43_stack.md, 44_control_flow.md: a register that is no destination of the instruction
keeps its value, for every operand form (`writesReg` lists the destinations). -/
def Obligations.RegisterFrameOfEveryInstruction : Prop :=
  ∀ (i : Instr) (s t : State) (k : Fin 8), exec i s = .next t → ¬ writesReg i k → t.reg k = s.reg k

/-- 20_memory.md section 1: every byte of memory keeps its value but the one PUSH and CALL store at the decremented SP
(`storedAddress` computes it); the other instructions store nothing. -/
def Obligations.MemoryFrameOfEveryInstruction : Prop :=
  ∀ (i : Instr) (s t : State) (addr : Nat), exec i s = .next t → storedAddress i s ≠ some addr →
    t.mem.read addr = s.mem.read addr

/-- 10_state.md sections 3, 4 and 5, 42_data_io.md, 60_exceptions.md section 3: no instruction but CMP changes FL, none but PRN changes
the output, none writes IR, the latches, the halt-request input or the parameters; the fault record changes only by the faulted
stop of that instruction (the spec's decisions D13, D14; its opcode byte is decision D1, log 1), and the run state only by it or
by HLT. -/
def Obligations.SystemFrameOfEveryInstruction : Prop :=
  ∀ (i : Instr) (s t : State), exec i s = .next t →
    ((∀ a b, i ≠ .cmp a b) → t.fl = s.fl) ∧ ((∀ a, i ≠ .prn a) → t.output = s.output) ∧
    t.ir = s.ir ∧ t.latchA = s.latchA ∧ t.latchB = s.latchB ∧ t.haltRequest = s.haltRequest ∧ t.params = s.params ∧
    (t.fault = s.fault ∨ ∃ cause info, cause ≠ .noCondition ∧ t = faultedStop s cause (some i.opcode) info) ∧
    (t.fault = s.fault → t.run = s.run ∨ t.run = .halted) ∧
    (t.fault = s.fault → s.fault.cause = .noCondition → i ≠ .hlt → t.run = s.run)

/-- 60_exceptions.md section 3 (the spec's decisions D1, D12, D13, D14): an instruction that fills the fault record writes nothing else, names
its own address and opcode in it, and halts. -/
def Obligations.FatalConditionIsPrecise : Prop :=
  ∀ (i : Instr) (s t : State), exec i s = .next t → t.fault ≠ s.fault →
    ∃ cause info, cause ≠ .noCondition ∧ t = faultedStop s cause (some i.opcode) info

/-! ### Whole-machine rules -/

/-- 10_state.md section 4 (with the spec's decision D6 for the reset value): in any step FL changes only under the opcode byte of CMP. -/
def Obligations.OnlyCmpChangesFlags : Prop :=
  ∀ s t : State, step s = .next t → t.fl ≠ s.fl → s.run = .running ∧ s.mem.read s.pc = 0xA7

/-- 42_data_io.md (the output channel; the spec's decision D28): a step leaves the output or appends one register's value to it, the latter
only under the opcode byte of PRN. -/
def Obligations.OnlyPrnAppendsOutput : Prop :=
  ∀ s t : State, step s = .next t → t.output = s.output ∨
    (s.run = .running ∧ s.mem.read s.pc = 0x47 ∧
      ∃ k : Fin 8, s.mem.read (s.pc + 1) = BitVec.ofNat 8 k.val ∧ t.output = s.output ++ [s.reg k])

/-- 20_memory.md section 1: a step changes no byte of memory but, under the opcode bytes of PUSH and CALL, the one at the decremented
SP. -/
def Obligations.OnlyPushAndCallChangeMemory : Prop :=
  ∀ (s t : State) (addr : Nat), step s = .next t → t.mem.read addr ≠ s.mem.read addr →
    (s.mem.read s.pc = 0x45 ∨ s.mem.read s.pc = 0x50) ∧ s.sp ≠ 0 ∧ addr = s.sp.toNat - 1

/-- 10_state.md section 4 and 44_control_flow.md section 3: flag bits 1 and 2 reach nothing: two states that differ in them alone take every
instruction to states that differ at most in FL, and after CMP in nothing. -/
def Obligations.FlagsActOnlyThroughEqual : Prop :=
  ∀ (i : Instr) (s t u : State) (f g : FlagWord), f[0] = g[0] →
    exec i { s with fl := f } = .next t → exec i { s with fl := g } = .next u →
    { t with fl := 0 } = { u with fl := 0 } ∧
      (∀ a b, i = .cmp a b → t.fault = s.fault → s.fault.cause = .noCondition → t = u)

/-- 40_cycle.md section 1, 60_exceptions.md sections 1 and 3, 93_implementation_defined.md part 1: no state stops the model: every step
answers a next state, neither a fault nor a refusal. That a fatal condition is a next state is the model's reading (log 9), and
that a step in Halted, where the spec's core takes none, answers the same state is its choice (log 8). -/
def Obligations.EveryStepAnswersNext : Prop :=
  ∀ s : State, ∃ t, step s = .next t

/-- 10_state.md sections 2 and 5, 20_memory.md section 1, 60_exceptions.md section 3: the memory stays canonical, PC stays 0 to 259, and the
fault record is empty unless the core is in the faulted stop it describes. -/
def Obligations.InvariantKeptByEveryStep : Prop :=
  ∀ s t : State, s.Inv → step s = .next t → t.Inv

/-- 10_state.md section 8: the invariant holds right after reset, for every value of the parameters. -/
def Obligations.InvariantHoldsAtReset : Prop :=
  State.reset.Inv ∧ ∀ c : Config, (State.resetWith c).Inv

/-- 10_state.md section 5, 60_exceptions.md sections 1 and 4 (the spec's decision D13): once filled, the fault record is not changed by
any number of steps. Halted steps are as in log 8. -/
def Obligations.FaultRecordWrittenOnce : Prop :=
  ∀ (n : Nat) (s t : State), s.Inv → s.fault.cause ≠ .noCondition → core.run n s = .next t → t.fault = s.fault

/-- 10_state.md section 3: no step sets the run state to Running; and a step that halts does so by a pending halt request, by HLT, or by
a fatal condition that fills the record (the opcode byte of HLT is the spec's decision D1). A step in Halted answers the same state
(log 8). -/
def Obligations.OnlyThreeWaysToHalt : Prop :=
  ∀ s t : State, s.fault.cause = .noCondition → step s = .next t →
    (t.run = .running → s.run = .running) ∧
    (s.run = .running → t.run = .halted →
      s.haltRequest = true ∨ s.mem.read s.pc = 0x01 ∨ t.fault.cause ≠ .noCondition)

/-- 00_scope.md section 3, 40_cycle.md section 1: the parameters and the host's halt-request input are never written by the core
(that State carries them is the model's choice, log 6 and 7). -/
def Obligations.ParametersAndInputNeverWritten : Prop :=
  ∀ s t : State, step s = .next t → t.params = s.params ∧ t.haltRequest = s.haltRequest

/-! ### The fetch itself -/

/-- R103, of the fetch: from a PC up to 255 it reads the opcode byte at PC into IR, whether or not the operand fetch then
raises; from a PC above 255 it raises AddressOutOfRange(PC), and the fault record then has no opcode. -/
def Obligations.FetchReadsTheOpcodeOrRaises : Prop :=
  (∀ s : State, s.pc ≤ 255 →
    ∃ t, (fetch s = .ready t ∨ ∃ c op, fetch s = .raised t c op) ∧ t.ir = s.mem.read s.pc) ∧
  (∀ s : State, 255 < s.pc →
    fetch s = .raised s (.addressOutOfRange s.pc) none ∧
    (s.fetches → ∃ t, step s = .next t ∧ t.fault.cause = .addressOutOfRange ∧ t.fault.info = some s.pc ∧ t.fault.opcode = none))
end

