-- ==== Sys2Proof/Laws/Decode.lean ====
section
/-! SUPPORT. What decoding can answer. -/

namespace Sys2Proof

/-- If decoding answers an instruction, the opcode byte is that instruction's, and the operands come from the operands given. -/
theorem decode_inv {op : Byte} {a b : Operand} {i : Instr} (h : decode op a b = .ok i) :
    op = i.opcode ∧ i.operands = [a, b].take i.operands.length := by
  unfold decode at h
  split at h <;> first | (cases h; exact ⟨rfl, rfl⟩) | cases h

/-- The opcode byte of an instruction has as many operand bytes as the instruction has operands (R71, R78). -/
theorem operandCount_opcode (i : Instr) : operandCount i.opcode = i.operands.length := by
  cases i <;> simp [operandCount, Instr.opcode, Instr.operands]

theorem instructionSize_opcode (i : Instr) : instructionSize i.opcode = i.operands.length + 1 := by
  rw [instructionSize, operandCount_opcode]

/-- The instructions that set PC themselves (R79, R109). -/
theorem setsPc_opcode (i : Instr) :
    setsPc i.opcode = match i with
      | .ret | .call _ | .jmp _ | .jeq _ | .jne _ => true
      | .hlt | .push _ | .pop _ | .prn _ | .ldi _ _ | .add _ _ | .mul _ _ | .mod _ _ | .cmp _ _ | .or _ _
      | .shl _ _ | .shr _ _ => false := by
  cases i <;> simp [setsPc, Instr.opcode]

/-- If decoding answers no instruction, it answers the class of the byte. -/
theorem decode_error_inv {op : Byte} {a b : Operand} {u : UnknownOpcode} (h : decode op a b = .error u) :
    u = classifyUnknown op := by
  unfold decode at h
  split at h <;> first | exact (Except.error.inj h).symm | cases h

/-- No byte asks for more than four bytes of advance (R72, R121). -/
theorem instructionSize_le (op : Byte) : instructionSize op ≤ 4 := by
  have := op.isLt
  unfold instructionSize operandCount
  omega

end Sys2Proof
end

