-- ==== Sys2Proof/Laws/State.lean ====
section
/-! SUPPORT. One lemma per field per update of the state, so that no proof unfolds a record update. -/

namespace Sys2Proof.Machine

variable (s : State)

/-! ### setRegs -/

@[simp] theorem State.setRegs_regs (v : Vector Byte 8) : (s.setRegs v).regs = v := rfl
@[simp] theorem State.setRegs_pc (v : Vector Byte 8) : (s.setRegs v).pc = s.pc := rfl
@[simp] theorem State.setRegs_run (v : Vector Byte 8) : (s.setRegs v).run = s.run := rfl
@[simp] theorem State.setRegs_fl (v : Vector Byte 8) : (s.setRegs v).fl = s.fl := rfl
@[simp] theorem State.setRegs_mem (v : Vector Byte 8) : (s.setRegs v).mem = s.mem := rfl
@[simp] theorem State.setRegs_output (v : Vector Byte 8) : (s.setRegs v).output = s.output := rfl
@[simp] theorem State.setRegs_fault (v : Vector Byte 8) : (s.setRegs v).fault = s.fault := rfl
@[simp] theorem State.setRegs_ir (v : Vector Byte 8) : (s.setRegs v).ir = s.ir := rfl
@[simp] theorem State.setRegs_latchA (v : Vector Byte 8) : (s.setRegs v).latchA = s.latchA := rfl
@[simp] theorem State.setRegs_latchB (v : Vector Byte 8) : (s.setRegs v).latchB = s.latchB := rfl
@[simp] theorem State.setRegs_haltRequest (v : Vector Byte 8) : (s.setRegs v).haltRequest = s.haltRequest := rfl
@[simp] theorem State.setRegs_params (v : Vector Byte 8) : (s.setRegs v).params = s.params := rfl

/-! ### setPc -/

@[simp] theorem State.setPc_regs (v : Nat) : (s.setPc v).regs = s.regs := rfl
@[simp] theorem State.setPc_pc (v : Nat) : (s.setPc v).pc = v := rfl
@[simp] theorem State.setPc_run (v : Nat) : (s.setPc v).run = s.run := rfl
@[simp] theorem State.setPc_fl (v : Nat) : (s.setPc v).fl = s.fl := rfl
@[simp] theorem State.setPc_mem (v : Nat) : (s.setPc v).mem = s.mem := rfl
@[simp] theorem State.setPc_output (v : Nat) : (s.setPc v).output = s.output := rfl
@[simp] theorem State.setPc_fault (v : Nat) : (s.setPc v).fault = s.fault := rfl
@[simp] theorem State.setPc_ir (v : Nat) : (s.setPc v).ir = s.ir := rfl
@[simp] theorem State.setPc_latchA (v : Nat) : (s.setPc v).latchA = s.latchA := rfl
@[simp] theorem State.setPc_latchB (v : Nat) : (s.setPc v).latchB = s.latchB := rfl
@[simp] theorem State.setPc_haltRequest (v : Nat) : (s.setPc v).haltRequest = s.haltRequest := rfl
@[simp] theorem State.setPc_params (v : Nat) : (s.setPc v).params = s.params := rfl

/-! ### setRun -/

@[simp] theorem State.setRun_regs (v : RunState) : (s.setRun v).regs = s.regs := rfl
@[simp] theorem State.setRun_pc (v : RunState) : (s.setRun v).pc = s.pc := rfl
@[simp] theorem State.setRun_run (v : RunState) : (s.setRun v).run = v := rfl
@[simp] theorem State.setRun_fl (v : RunState) : (s.setRun v).fl = s.fl := rfl
@[simp] theorem State.setRun_mem (v : RunState) : (s.setRun v).mem = s.mem := rfl
@[simp] theorem State.setRun_output (v : RunState) : (s.setRun v).output = s.output := rfl
@[simp] theorem State.setRun_fault (v : RunState) : (s.setRun v).fault = s.fault := rfl
@[simp] theorem State.setRun_ir (v : RunState) : (s.setRun v).ir = s.ir := rfl
@[simp] theorem State.setRun_latchA (v : RunState) : (s.setRun v).latchA = s.latchA := rfl
@[simp] theorem State.setRun_latchB (v : RunState) : (s.setRun v).latchB = s.latchB := rfl
@[simp] theorem State.setRun_haltRequest (v : RunState) : (s.setRun v).haltRequest = s.haltRequest := rfl
@[simp] theorem State.setRun_params (v : RunState) : (s.setRun v).params = s.params := rfl

/-! ### setFl -/

@[simp] theorem State.setFl_regs (v : FlagWord) : (s.setFl v).regs = s.regs := rfl
@[simp] theorem State.setFl_pc (v : FlagWord) : (s.setFl v).pc = s.pc := rfl
@[simp] theorem State.setFl_run (v : FlagWord) : (s.setFl v).run = s.run := rfl
@[simp] theorem State.setFl_fl (v : FlagWord) : (s.setFl v).fl = v := rfl
@[simp] theorem State.setFl_mem (v : FlagWord) : (s.setFl v).mem = s.mem := rfl
@[simp] theorem State.setFl_output (v : FlagWord) : (s.setFl v).output = s.output := rfl
@[simp] theorem State.setFl_fault (v : FlagWord) : (s.setFl v).fault = s.fault := rfl
@[simp] theorem State.setFl_ir (v : FlagWord) : (s.setFl v).ir = s.ir := rfl
@[simp] theorem State.setFl_latchA (v : FlagWord) : (s.setFl v).latchA = s.latchA := rfl
@[simp] theorem State.setFl_latchB (v : FlagWord) : (s.setFl v).latchB = s.latchB := rfl
@[simp] theorem State.setFl_haltRequest (v : FlagWord) : (s.setFl v).haltRequest = s.haltRequest := rfl
@[simp] theorem State.setFl_params (v : FlagWord) : (s.setFl v).params = s.params := rfl

/-! ### setMem -/

@[simp] theorem State.setMem_regs (v : Memory) : (s.setMem v).regs = s.regs := rfl
@[simp] theorem State.setMem_pc (v : Memory) : (s.setMem v).pc = s.pc := rfl
@[simp] theorem State.setMem_run (v : Memory) : (s.setMem v).run = s.run := rfl
@[simp] theorem State.setMem_fl (v : Memory) : (s.setMem v).fl = s.fl := rfl
@[simp] theorem State.setMem_mem (v : Memory) : (s.setMem v).mem = v := rfl
@[simp] theorem State.setMem_output (v : Memory) : (s.setMem v).output = s.output := rfl
@[simp] theorem State.setMem_fault (v : Memory) : (s.setMem v).fault = s.fault := rfl
@[simp] theorem State.setMem_ir (v : Memory) : (s.setMem v).ir = s.ir := rfl
@[simp] theorem State.setMem_latchA (v : Memory) : (s.setMem v).latchA = s.latchA := rfl
@[simp] theorem State.setMem_latchB (v : Memory) : (s.setMem v).latchB = s.latchB := rfl
@[simp] theorem State.setMem_haltRequest (v : Memory) : (s.setMem v).haltRequest = s.haltRequest := rfl
@[simp] theorem State.setMem_params (v : Memory) : (s.setMem v).params = s.params := rfl

/-! ### setOutput -/

@[simp] theorem State.setOutput_regs (v : List Byte) : (s.setOutput v).regs = s.regs := rfl
@[simp] theorem State.setOutput_pc (v : List Byte) : (s.setOutput v).pc = s.pc := rfl
@[simp] theorem State.setOutput_run (v : List Byte) : (s.setOutput v).run = s.run := rfl
@[simp] theorem State.setOutput_fl (v : List Byte) : (s.setOutput v).fl = s.fl := rfl
@[simp] theorem State.setOutput_mem (v : List Byte) : (s.setOutput v).mem = s.mem := rfl
@[simp] theorem State.setOutput_output (v : List Byte) : (s.setOutput v).output = v := rfl
@[simp] theorem State.setOutput_fault (v : List Byte) : (s.setOutput v).fault = s.fault := rfl
@[simp] theorem State.setOutput_ir (v : List Byte) : (s.setOutput v).ir = s.ir := rfl
@[simp] theorem State.setOutput_latchA (v : List Byte) : (s.setOutput v).latchA = s.latchA := rfl
@[simp] theorem State.setOutput_latchB (v : List Byte) : (s.setOutput v).latchB = s.latchB := rfl
@[simp] theorem State.setOutput_haltRequest (v : List Byte) : (s.setOutput v).haltRequest = s.haltRequest := rfl
@[simp] theorem State.setOutput_params (v : List Byte) : (s.setOutput v).params = s.params := rfl

/-! ### setFault -/

@[simp] theorem State.setFault_regs (v : FaultRecord) : (s.setFault v).regs = s.regs := rfl
@[simp] theorem State.setFault_pc (v : FaultRecord) : (s.setFault v).pc = s.pc := rfl
@[simp] theorem State.setFault_run (v : FaultRecord) : (s.setFault v).run = s.run := rfl
@[simp] theorem State.setFault_fl (v : FaultRecord) : (s.setFault v).fl = s.fl := rfl
@[simp] theorem State.setFault_mem (v : FaultRecord) : (s.setFault v).mem = s.mem := rfl
@[simp] theorem State.setFault_output (v : FaultRecord) : (s.setFault v).output = s.output := rfl
@[simp] theorem State.setFault_fault (v : FaultRecord) : (s.setFault v).fault = v := rfl
@[simp] theorem State.setFault_ir (v : FaultRecord) : (s.setFault v).ir = s.ir := rfl
@[simp] theorem State.setFault_latchA (v : FaultRecord) : (s.setFault v).latchA = s.latchA := rfl
@[simp] theorem State.setFault_latchB (v : FaultRecord) : (s.setFault v).latchB = s.latchB := rfl
@[simp] theorem State.setFault_haltRequest (v : FaultRecord) : (s.setFault v).haltRequest = s.haltRequest := rfl
@[simp] theorem State.setFault_params (v : FaultRecord) : (s.setFault v).params = s.params := rfl

/-! ### setIr -/

@[simp] theorem State.setIr_regs (v : Byte) : (s.setIr v).regs = s.regs := rfl
@[simp] theorem State.setIr_pc (v : Byte) : (s.setIr v).pc = s.pc := rfl
@[simp] theorem State.setIr_run (v : Byte) : (s.setIr v).run = s.run := rfl
@[simp] theorem State.setIr_fl (v : Byte) : (s.setIr v).fl = s.fl := rfl
@[simp] theorem State.setIr_mem (v : Byte) : (s.setIr v).mem = s.mem := rfl
@[simp] theorem State.setIr_output (v : Byte) : (s.setIr v).output = s.output := rfl
@[simp] theorem State.setIr_fault (v : Byte) : (s.setIr v).fault = s.fault := rfl
@[simp] theorem State.setIr_ir (v : Byte) : (s.setIr v).ir = v := rfl
@[simp] theorem State.setIr_latchA (v : Byte) : (s.setIr v).latchA = s.latchA := rfl
@[simp] theorem State.setIr_latchB (v : Byte) : (s.setIr v).latchB = s.latchB := rfl
@[simp] theorem State.setIr_haltRequest (v : Byte) : (s.setIr v).haltRequest = s.haltRequest := rfl
@[simp] theorem State.setIr_params (v : Byte) : (s.setIr v).params = s.params := rfl

/-! ### setLatchA -/

@[simp] theorem State.setLatchA_regs (v : Operand) : (s.setLatchA v).regs = s.regs := rfl
@[simp] theorem State.setLatchA_pc (v : Operand) : (s.setLatchA v).pc = s.pc := rfl
@[simp] theorem State.setLatchA_run (v : Operand) : (s.setLatchA v).run = s.run := rfl
@[simp] theorem State.setLatchA_fl (v : Operand) : (s.setLatchA v).fl = s.fl := rfl
@[simp] theorem State.setLatchA_mem (v : Operand) : (s.setLatchA v).mem = s.mem := rfl
@[simp] theorem State.setLatchA_output (v : Operand) : (s.setLatchA v).output = s.output := rfl
@[simp] theorem State.setLatchA_fault (v : Operand) : (s.setLatchA v).fault = s.fault := rfl
@[simp] theorem State.setLatchA_ir (v : Operand) : (s.setLatchA v).ir = s.ir := rfl
@[simp] theorem State.setLatchA_latchA (v : Operand) : (s.setLatchA v).latchA = v := rfl
@[simp] theorem State.setLatchA_latchB (v : Operand) : (s.setLatchA v).latchB = s.latchB := rfl
@[simp] theorem State.setLatchA_haltRequest (v : Operand) : (s.setLatchA v).haltRequest = s.haltRequest := rfl
@[simp] theorem State.setLatchA_params (v : Operand) : (s.setLatchA v).params = s.params := rfl

/-! ### setLatchB -/

@[simp] theorem State.setLatchB_regs (v : Operand) : (s.setLatchB v).regs = s.regs := rfl
@[simp] theorem State.setLatchB_pc (v : Operand) : (s.setLatchB v).pc = s.pc := rfl
@[simp] theorem State.setLatchB_run (v : Operand) : (s.setLatchB v).run = s.run := rfl
@[simp] theorem State.setLatchB_fl (v : Operand) : (s.setLatchB v).fl = s.fl := rfl
@[simp] theorem State.setLatchB_mem (v : Operand) : (s.setLatchB v).mem = s.mem := rfl
@[simp] theorem State.setLatchB_output (v : Operand) : (s.setLatchB v).output = s.output := rfl
@[simp] theorem State.setLatchB_fault (v : Operand) : (s.setLatchB v).fault = s.fault := rfl
@[simp] theorem State.setLatchB_ir (v : Operand) : (s.setLatchB v).ir = s.ir := rfl
@[simp] theorem State.setLatchB_latchA (v : Operand) : (s.setLatchB v).latchA = s.latchA := rfl
@[simp] theorem State.setLatchB_latchB (v : Operand) : (s.setLatchB v).latchB = v := rfl
@[simp] theorem State.setLatchB_haltRequest (v : Operand) : (s.setLatchB v).haltRequest = s.haltRequest := rfl
@[simp] theorem State.setLatchB_params (v : Operand) : (s.setLatchB v).params = s.params := rfl

/-! ### setHaltRequest -/

@[simp] theorem State.setHaltRequest_regs (v : Bool) : (s.setHaltRequest v).regs = s.regs := rfl
@[simp] theorem State.setHaltRequest_pc (v : Bool) : (s.setHaltRequest v).pc = s.pc := rfl
@[simp] theorem State.setHaltRequest_run (v : Bool) : (s.setHaltRequest v).run = s.run := rfl
@[simp] theorem State.setHaltRequest_fl (v : Bool) : (s.setHaltRequest v).fl = s.fl := rfl
@[simp] theorem State.setHaltRequest_mem (v : Bool) : (s.setHaltRequest v).mem = s.mem := rfl
@[simp] theorem State.setHaltRequest_output (v : Bool) : (s.setHaltRequest v).output = s.output := rfl
@[simp] theorem State.setHaltRequest_fault (v : Bool) : (s.setHaltRequest v).fault = s.fault := rfl
@[simp] theorem State.setHaltRequest_ir (v : Bool) : (s.setHaltRequest v).ir = s.ir := rfl
@[simp] theorem State.setHaltRequest_latchA (v : Bool) : (s.setHaltRequest v).latchA = s.latchA := rfl
@[simp] theorem State.setHaltRequest_latchB (v : Bool) : (s.setHaltRequest v).latchB = s.latchB := rfl
@[simp] theorem State.setHaltRequest_haltRequest (v : Bool) : (s.setHaltRequest v).haltRequest = v := rfl
@[simp] theorem State.setHaltRequest_params (v : Bool) : (s.setHaltRequest v).params = s.params := rfl

/-! ### setReg -/

@[simp] theorem State.setReg_regs (k : Fin 8) (v : Byte) : (s.setReg k v).regs = s.regs.set k v := rfl
@[simp] theorem State.setReg_pc (k : Fin 8) (v : Byte) : (s.setReg k v).pc = s.pc := rfl
@[simp] theorem State.setReg_run (k : Fin 8) (v : Byte) : (s.setReg k v).run = s.run := rfl
@[simp] theorem State.setReg_fl (k : Fin 8) (v : Byte) : (s.setReg k v).fl = s.fl := rfl
@[simp] theorem State.setReg_mem (k : Fin 8) (v : Byte) : (s.setReg k v).mem = s.mem := rfl
@[simp] theorem State.setReg_output (k : Fin 8) (v : Byte) : (s.setReg k v).output = s.output := rfl
@[simp] theorem State.setReg_fault (k : Fin 8) (v : Byte) : (s.setReg k v).fault = s.fault := rfl
@[simp] theorem State.setReg_ir (k : Fin 8) (v : Byte) : (s.setReg k v).ir = s.ir := rfl
@[simp] theorem State.setReg_latchA (k : Fin 8) (v : Byte) : (s.setReg k v).latchA = s.latchA := rfl
@[simp] theorem State.setReg_latchB (k : Fin 8) (v : Byte) : (s.setReg k v).latchB = s.latchB := rfl
@[simp] theorem State.setReg_haltRequest (k : Fin 8) (v : Byte) : (s.setReg k v).haltRequest = s.haltRequest := rfl
@[simp] theorem State.setReg_params (k : Fin 8) (v : Byte) : (s.setReg k v).params = s.params := rfl

/-! ### setSp -/

@[simp] theorem State.setSp_regs (v : Byte) : (s.setSp v).regs = s.regs.set spIndex v := rfl
@[simp] theorem State.setSp_pc (v : Byte) : (s.setSp v).pc = s.pc := rfl
@[simp] theorem State.setSp_run (v : Byte) : (s.setSp v).run = s.run := rfl
@[simp] theorem State.setSp_fl (v : Byte) : (s.setSp v).fl = s.fl := rfl
@[simp] theorem State.setSp_mem (v : Byte) : (s.setSp v).mem = s.mem := rfl
@[simp] theorem State.setSp_output (v : Byte) : (s.setSp v).output = s.output := rfl
@[simp] theorem State.setSp_fault (v : Byte) : (s.setSp v).fault = s.fault := rfl
@[simp] theorem State.setSp_ir (v : Byte) : (s.setSp v).ir = s.ir := rfl
@[simp] theorem State.setSp_latchA (v : Byte) : (s.setSp v).latchA = s.latchA := rfl
@[simp] theorem State.setSp_latchB (v : Byte) : (s.setSp v).latchB = s.latchB := rfl
@[simp] theorem State.setSp_haltRequest (v : Byte) : (s.setSp v).haltRequest = s.haltRequest := rfl
@[simp] theorem State.setSp_params (v : Byte) : (s.setSp v).params = s.params := rfl

/-! ### emit -/

@[simp] theorem State.emit_regs (v : Byte) : (s.emit v).regs = s.regs := rfl
@[simp] theorem State.emit_pc (v : Byte) : (s.emit v).pc = s.pc := rfl
@[simp] theorem State.emit_run (v : Byte) : (s.emit v).run = s.run := rfl
@[simp] theorem State.emit_fl (v : Byte) : (s.emit v).fl = s.fl := rfl
@[simp] theorem State.emit_mem (v : Byte) : (s.emit v).mem = s.mem := rfl
@[simp] theorem State.emit_output (v : Byte) : (s.emit v).output = s.output ++ [v] := rfl
@[simp] theorem State.emit_fault (v : Byte) : (s.emit v).fault = s.fault := rfl
@[simp] theorem State.emit_ir (v : Byte) : (s.emit v).ir = s.ir := rfl
@[simp] theorem State.emit_latchA (v : Byte) : (s.emit v).latchA = s.latchA := rfl
@[simp] theorem State.emit_latchB (v : Byte) : (s.emit v).latchB = s.latchB := rfl
@[simp] theorem State.emit_haltRequest (v : Byte) : (s.emit v).haltRequest = s.haltRequest := rfl
@[simp] theorem State.emit_params (v : Byte) : (s.emit v).params = s.params := rfl

/-! ### takeFatal -/

@[simp] theorem State.takeFatal_regs (c : Condition) (op : Option Byte) : (s.takeFatal c op).regs = s.regs := rfl
@[simp] theorem State.takeFatal_pc (c : Condition) (op : Option Byte) : (s.takeFatal c op).pc = s.pc := rfl
@[simp] theorem State.takeFatal_run (c : Condition) (op : Option Byte) : (s.takeFatal c op).run = .halted := rfl
@[simp] theorem State.takeFatal_fl (c : Condition) (op : Option Byte) : (s.takeFatal c op).fl = s.fl := rfl
@[simp] theorem State.takeFatal_mem (c : Condition) (op : Option Byte) : (s.takeFatal c op).mem = s.mem := rfl
@[simp] theorem State.takeFatal_output (c : Condition) (op : Option Byte) : (s.takeFatal c op).output = s.output := rfl
@[simp] theorem State.takeFatal_fault (c : Condition) (op : Option Byte) : (s.takeFatal c op).fault = { cause := c.cause, pc := s.pc, opcode := op, info := c.info } := rfl
@[simp] theorem State.takeFatal_ir (c : Condition) (op : Option Byte) : (s.takeFatal c op).ir = s.ir := rfl
@[simp] theorem State.takeFatal_latchA (c : Condition) (op : Option Byte) : (s.takeFatal c op).latchA = s.latchA := rfl
@[simp] theorem State.takeFatal_latchB (c : Condition) (op : Option Byte) : (s.takeFatal c op).latchB = s.latchB := rfl
@[simp] theorem State.takeFatal_haltRequest (c : Condition) (op : Option Byte) : (s.takeFatal c op).haltRequest = s.haltRequest := rfl
@[simp] theorem State.takeFatal_params (c : Condition) (op : Option Byte) : (s.takeFatal c op).params = s.params := rfl

/-! ### Registers read through the updates -/

@[simp] theorem State.reg_setPc (v : Nat) (k : Fin 8) : (s.setPc v).reg k = s.reg k := rfl
@[simp] theorem State.sp_setPc (v : Nat) : (s.setPc v).sp = s.sp := rfl
@[simp] theorem State.reg_setRun (v : RunState) (k : Fin 8) : (s.setRun v).reg k = s.reg k := rfl
@[simp] theorem State.sp_setRun (v : RunState) : (s.setRun v).sp = s.sp := rfl
@[simp] theorem State.reg_setFl (v : FlagWord) (k : Fin 8) : (s.setFl v).reg k = s.reg k := rfl
@[simp] theorem State.sp_setFl (v : FlagWord) : (s.setFl v).sp = s.sp := rfl
@[simp] theorem State.reg_setMem (v : Memory) (k : Fin 8) : (s.setMem v).reg k = s.reg k := rfl
@[simp] theorem State.sp_setMem (v : Memory) : (s.setMem v).sp = s.sp := rfl
@[simp] theorem State.reg_setOutput (v : List Byte) (k : Fin 8) : (s.setOutput v).reg k = s.reg k := rfl
@[simp] theorem State.sp_setOutput (v : List Byte) : (s.setOutput v).sp = s.sp := rfl
@[simp] theorem State.reg_setFault (v : FaultRecord) (k : Fin 8) : (s.setFault v).reg k = s.reg k := rfl
@[simp] theorem State.sp_setFault (v : FaultRecord) : (s.setFault v).sp = s.sp := rfl
@[simp] theorem State.reg_setIr (v : Byte) (k : Fin 8) : (s.setIr v).reg k = s.reg k := rfl
@[simp] theorem State.sp_setIr (v : Byte) : (s.setIr v).sp = s.sp := rfl
@[simp] theorem State.reg_setLatchA (v : Operand) (k : Fin 8) : (s.setLatchA v).reg k = s.reg k := rfl
@[simp] theorem State.sp_setLatchA (v : Operand) : (s.setLatchA v).sp = s.sp := rfl
@[simp] theorem State.reg_setLatchB (v : Operand) (k : Fin 8) : (s.setLatchB v).reg k = s.reg k := rfl
@[simp] theorem State.sp_setLatchB (v : Operand) : (s.setLatchB v).sp = s.sp := rfl
@[simp] theorem State.reg_setHaltRequest (v : Bool) (k : Fin 8) : (s.setHaltRequest v).reg k = s.reg k := rfl
@[simp] theorem State.sp_setHaltRequest (v : Bool) : (s.setHaltRequest v).sp = s.sp := rfl
@[simp] theorem State.reg_emit (v : Byte) (k : Fin 8) : (s.emit v).reg k = s.reg k := rfl
@[simp] theorem State.reg_takeFatal (c : Condition) (op : Option Byte) (k : Fin 8) : (s.takeFatal c op).reg k = s.reg k := rfl

/-- A register read after a register write. -/
theorem State.reg_setReg (k j : Fin 8) (v : Byte) : (s.setReg k v).reg j = if k = j then v else s.reg j := by
  simp [State.reg, Vector.getElem_set, Fin.ext_iff]

@[simp] theorem State.reg_setReg_same (k : Fin 8) (v : Byte) : (s.setReg k v).reg k = v := by simp [State.reg_setReg]

theorem State.reg_setReg_other {k j : Fin 8} (h : j ≠ k) (v : Byte) : (s.setReg k v).reg j = s.reg j := by
  simp [State.reg_setReg, Ne.symm h]

theorem State.reg_setSp (j : Fin 8) (v : Byte) : (s.setSp v).reg j = if spIndex = j then v else s.reg j :=
  s.reg_setReg spIndex j v

@[simp] theorem State.sp_setSp (v : Byte) : (s.setSp v).sp = v := s.reg_setReg_same spIndex v

@[simp] theorem State.reg_spIndex : s.reg spIndex = s.sp := rfl

end Sys2Proof.Machine
end

