-- ==== Sys2Proof/Laws/Memory.lean ====
section
/-! SUPPORT. Memory: a read after a write, and every memory operation keeps the canonical form. -/

namespace Sys2Proof.Machine

/-! ### Reads -/

theorem Memory.read_erase (m : Memory) (a b : Nat) :
    (m.erase a).read b = if b = a then Memory.unlistedByte else m.read b := by
  induction m with
  | nil => simp [Memory.erase, Memory.read]
  | cons c rest ih =>
    obtain ⟨x, w⟩ := c
    simp only [Memory.erase] at ih ⊢
    by_cases hx : x = a
    · by_cases hb : b = a
      · subst hx hb
        simpa [Memory.read] using ih
      · subst hx
        simpa [Memory.read, hb] using ih
    · by_cases hb : b = x
      · subst hb
        simp [Memory.read, hx]
      · simpa [Memory.read, hx, hb] using ih

theorem Memory.read_insert_same {m : Memory} {a : Nat} (v : Byte) (h : ∀ c ∈ m, c.1 ≠ a) :
    (m.insert a v).read a = v := by
  induction m with
  | nil => simp [Memory.insert, Memory.read]
  | cons c rest ih =>
    obtain ⟨x, w⟩ := c
    have hx : x ≠ a := h (x, w) (by simp)
    by_cases hlt : a < x
    · simp [Memory.insert, hlt, Memory.read]
    · simpa [Memory.insert, hlt, Memory.read, Ne.symm hx] using ih fun c hc => h c (by simp [hc])

theorem Memory.read_insert_other (m : Memory) {a b : Nat} (v : Byte) (h : b ≠ a) :
    (m.insert a v).read b = m.read b := by
  induction m with
  | nil => simp [Memory.insert, Memory.read, h]
  | cons c rest ih =>
    obtain ⟨x, w⟩ := c
    by_cases hlt : a < x
    · simp [Memory.insert, hlt, Memory.read, h]
    · simp [Memory.insert, hlt, Memory.read, ih]

/-- A read after a write, in every memory: the written place holds the value, every other place is as before. -/
theorem Memory.read_write (m : Memory) (a b : Nat) (v : Byte) :
    (m.write a v).read b = if b = a then v else m.read b := by
  unfold Memory.write
  by_cases hv : v = Memory.unlistedByte
  · simp [hv, Memory.read_erase]
  · by_cases hb : b = a
    · subst hb
      simp only [hv, if_false, if_true]
      exact Memory.read_insert_same v fun c hc => by simpa [Memory.erase] using (List.mem_filter.1 hc).2
    · simp [hv, hb, Memory.read_insert_other, Memory.read_erase]

@[simp] theorem Memory.read_write_same (m : Memory) (a : Nat) (v : Byte) : (m.write a v).read a = v := by
  simp [Memory.read_write]

theorem Memory.read_write_other (m : Memory) {a b : Nat} (h : b ≠ a) (v : Byte) :
    (m.write a v).read b = m.read b := by
  simp [Memory.read_write, h]

/-! ### The canonical form -/

theorem Memory.wfFrom_cons {lo a : Nat} {v : Byte} {m : Memory} :
    Memory.wfFrom lo ((a, v) :: m) = true ↔
      lo ≤ a ∧ a < memSize ∧ v ≠ Memory.unlistedByte ∧ m.wfFrom (a + 1) = true := by
  simp [Memory.wfFrom, and_assoc]

theorem Memory.wfFrom_mono {lo hi : Nat} {m : Memory} (h : lo ≤ hi) (w : m.wfFrom hi = true) :
    m.wfFrom lo = true := by
  cases m with
  | nil => rfl
  | cons c rest =>
    obtain ⟨a, v⟩ := c
    rw [Memory.wfFrom_cons] at w ⊢
    exact ⟨by omega, w.2⟩

theorem Memory.wfFrom_erase {lo : Nat} {m : Memory} (a : Nat) (w : m.wfFrom lo = true) :
    (m.erase a).wfFrom lo = true := by
  induction m generalizing lo with
  | nil => rfl
  | cons c rest ih =>
    obtain ⟨x, v⟩ := c
    rw [Memory.wfFrom_cons] at w
    have hrest := ih w.2.2.2
    by_cases hx : x = a
    · simpa [Memory.erase, hx] using Memory.wfFrom_mono (by omega : lo ≤ x + 1) hrest
    · simp only [Memory.erase, List.filter] at hrest ⊢
      simp only [show (x != a) = true by simp [hx]]
      exact Memory.wfFrom_cons.2 ⟨w.1, w.2.1, w.2.2.1, hrest⟩

theorem Memory.wfFrom_insert {lo a : Nat} {v : Byte} {m : Memory} (w : m.wfFrom lo = true) (hlo : lo ≤ a)
    (ha : a < memSize) (hv : v ≠ Memory.unlistedByte) (h : ∀ c ∈ m, c.1 ≠ a) :
    (m.insert a v).wfFrom lo = true := by
  induction m generalizing lo with
  | nil => exact Memory.wfFrom_cons.2 ⟨hlo, ha, hv, rfl⟩
  | cons c rest ih =>
    obtain ⟨x, u⟩ := c
    have hx : x ≠ a := h (x, u) (by simp)
    rw [Memory.wfFrom_cons] at w
    by_cases hlt : a < x
    · simp only [Memory.insert, hlt, if_true]
      exact Memory.wfFrom_cons.2 ⟨hlo, ha, hv, Memory.wfFrom_cons.2 ⟨by omega, w.2⟩⟩
    · simp only [Memory.insert, hlt, if_false]
      exact Memory.wfFrom_cons.2
        ⟨w.1, w.2.1, w.2.2.1, ih w.2.2.2 (by omega) fun c hc => h c (by simp [hc])⟩

/-- A write to an address that exists keeps the canonical form. -/
theorem Memory.wf_write {m : Memory} {a : Nat} (v : Byte) (w : m.wf = true) (ha : a < memSize) :
    (m.write a v).wf = true := by
  unfold Memory.write
  by_cases hv : v = Memory.unlistedByte
  · simpa [hv, Memory.wf] using Memory.wfFrom_erase a w
  · simp only [hv, if_false]
    exact Memory.wfFrom_insert (Memory.wfFrom_erase a w) (Nat.zero_le a) ha hv
      fun c hc => by simpa [Memory.erase] using (List.mem_filter.1 hc).2

theorem Memory.wf_place {m : Memory} (a : Nat) (v : Byte) (w : m.wf = true) : (m.place a v).wf = true := by
  unfold Memory.place
  split
  · exact Memory.wf_write v w ‹_›
  · exact w

theorem Memory.wfFrom_ofBytes {addr : Nat} {bytes : List Byte} (h : addr + bytes.length ≤ memSize) :
    (Memory.ofBytes addr bytes).wfFrom addr = true := by
  induction bytes generalizing addr with
  | nil => rfl
  | cons v rest ih =>
    have hlen : addr + 1 + rest.length ≤ memSize := by simp at h; omega
    by_cases hv : v = Memory.unlistedByte
    · simpa [Memory.ofBytes, hv] using Memory.wfFrom_mono (Nat.le_succ addr) (ih hlen)
    · simp only [Memory.ofBytes, hv, if_false]
      exact Memory.wfFrom_cons.2 ⟨Nat.le_refl _, by omega, hv, ih hlen⟩

theorem Memory.read_ofBytes_below {addr a : Nat} (bytes : List Byte) (h : a < addr) :
    (Memory.ofBytes addr bytes).read a = Memory.unlistedByte := by
  induction bytes generalizing addr with
  | nil => rfl
  | cons v rest ih =>
    by_cases hv : v = Memory.unlistedByte
    · simpa [Memory.ofBytes, hv] using ih (by omega)
    · simpa [Memory.ofBytes, hv, Memory.read, show a ≠ addr by omega] using ih (by omega)

/-- The cells of consecutive bytes hold those bytes. -/
theorem Memory.read_ofBytes (addr j : Nat) (bytes : List Byte) :
    (Memory.ofBytes addr bytes).read (addr + j) = (bytes[j]?).getD Memory.unlistedByte := by
  induction bytes generalizing addr j with
  | nil => simp [Memory.ofBytes, Memory.read]
  | cons v rest ih =>
    cases j with
    | zero =>
      by_cases hv : v = Memory.unlistedByte
      · simp [Memory.ofBytes, hv, Memory.read_ofBytes_below]
      · simp [Memory.ofBytes, hv, Memory.read]
    | succ j =>
      have := ih (addr + 1) j
      rw [show addr + 1 + j = addr + (j + 1) by omega] at this
      by_cases hv : v = Memory.unlistedByte
      · simpa [Memory.ofBytes, hv] using this
      · simpa [Memory.ofBytes, hv, Memory.read] using this

theorem State.reset_mem_wf : State.reset.mem.wf = true := rfl

theorem State.resetWith_mem_wf (c : Config) : (State.resetWith c).mem.wf = true :=
  Memory.wfFrom_ofBytes (by simp [memSize])

/-! ### The access primitives (R51) -/

theorem memRead_ok {s : State} {addr : Nat} (h : addr < memSize) : memRead s addr = .ok (s.mem.read addr) := by
  simp [memRead, h]

theorem memRead_error {s : State} {addr : Nat} (h : memSize ≤ addr) :
    memRead s addr = .error (.addressOutOfRange addr) := by
  simp [memRead, Nat.not_lt.2 h]

theorem memWrite_ok {s : State} {addr : Nat} (v : Byte) (h : addr < memSize) :
    memWrite s addr v = .ok (s.setMem (s.mem.write addr v)) := by
  simp [memWrite, h]

theorem memWrite_error {s : State} {addr : Nat} (v : Byte) (h : memSize ≤ addr) :
    memWrite s addr v = .error (.addressOutOfRange addr) := by
  simp [memWrite, Nat.not_lt.2 h]

/-- If a read answers, the address exists and the byte is the cell's. -/
theorem memRead_inv {s : State} {addr : Nat} {v : Byte} (h : memRead s addr = .ok v) :
    addr < memSize ∧ v = s.mem.read addr := by
  unfold memRead at h
  split at h
  · exact ⟨‹_›, (Except.ok.inj h).symm⟩
  · cases h

/-- If a write answers, the address exists and only memory changed. -/
theorem memWrite_inv {s t : State} {addr : Nat} {v : Byte} (h : memWrite s addr v = .ok t) :
    addr < memSize ∧ t = s.setMem (s.mem.write addr v) := by
  unfold memWrite at h
  split at h
  · exact ⟨‹_›, (Except.ok.inj h).symm⟩
  · cases h

end Sys2Proof.Machine
end

