-- ==== Sys2Proof/Laws/Ops.lean ====
section
/-! SUPPORT. For each shared operation, once, everything it can do: the operands, the stack, the end of an
instruction, the fetch and the step. -/

namespace Sys2Proof.Machine

/-! ### Operands -/

theorem registerIndex_ok {v : Byte} (h : v.toNat < 8) : registerIndex v = .ok ⟨v.toNat, h⟩ := by
  simp [registerIndex, h]

theorem registerIndex_error {v : Byte} (h : 8 ≤ v.toNat) : registerIndex v = .error (.registerOutOfRange v) := by
  simp [registerIndex, Nat.not_lt.2 h]

theorem registerIndex_regByte (k : Fin 8) : registerIndex (BitVec.ofNat 8 k.val) = .ok k := by
  revert k
  decide

/-- The byte of a register operand names that register. -/
theorem consultRegister_regOperand (k : Fin 8) (addr : Nat) : consultRegister (regOperand k) addr = .ok k := by
  simp [consultRegister, regOperand, consult, registerIndex_regByte]

theorem consultRegister_error {v : Byte} (addr : Nat) (h : 8 ≤ v.toNat) :
    consultRegister (.byte v) addr = .error (.registerOutOfRange v) := by
  simp [consultRegister, consult, registerIndex_error h]

theorem consultRegister_missing (addr : Nat) :
    consultRegister .missing addr = .error (.addressOutOfRange addr) := rfl

/-- If a register operand answers, the operand is the byte that names that register. -/
theorem consultRegister_inv {o : Operand} {addr : Nat} {k : Fin 8} (h : consultRegister o addr = .ok k) :
    o = regOperand k := by
  cases o with
  | missing => cases h
  | byte v =>
    simp only [consultRegister, consult, registerIndex] at h
    split at h
    · cases h
      simp [regOperand]
    · cases h

@[simp] theorem registerA_regOperand (k : Fin 8) (s : State) : registerA (regOperand k) s = .ok k :=
  consultRegister_regOperand k _

@[simp] theorem registerB_regOperand (k : Fin 8) (s : State) : registerB (regOperand k) s = .ok k :=
  consultRegister_regOperand k _

theorem registerA_error {v : Byte} (s : State) (h : 8 ≤ v.toNat) :
    registerA (.byte v) s = .error (.registerOutOfRange v) := consultRegister_error _ h

theorem registerB_error {v : Byte} (s : State) (h : 8 ≤ v.toNat) :
    registerB (.byte v) s = .error (.registerOutOfRange v) := consultRegister_error _ h

theorem registerA_missing (s : State) : registerA .missing s = .error (.addressOutOfRange (s.pc + 1)) := rfl

theorem registerB_missing (s : State) : registerB .missing s = .error (.addressOutOfRange (s.pc + 2)) := rfl

theorem registerA_inv {a : Operand} {s : State} {k : Fin 8} (h : registerA a s = .ok k) : a = regOperand k :=
  consultRegister_inv h

theorem registerB_inv {b : Operand} {s : State} {k : Fin 8} (h : registerB b s = .ok k) : b = regOperand k :=
  consultRegister_inv h

/-- A present operand byte names a register or its index is out of range. -/
theorem byte_cases (v : Byte) : (∃ k : Fin 8, Operand.byte v = regOperand k) ∨ 8 ≤ v.toNat := by
  by_cases h : v.toNat < 8
  · exact .inl ⟨⟨v.toNat, h⟩, by simp [regOperand]⟩
  · exact .inr (by omega)

/-! ### The stack (R180) -/

theorem stackDown_ok {s : State} (h : s.sp ≠ 0) : stackDown s = .ok (s.setSp (s.sp - 1)) :=
  if_neg h

theorem stackDown_error {s : State} (h : s.sp = 0) : stackDown s = .error .stackOverflow :=
  if_pos h

theorem stackDown_inv {s t : State} (h : stackDown s = .ok t) : s.sp ≠ 0 ∧ t = s.setSp (s.sp - 1) := by
  unfold stackDown at h
  split at h
  · cases h
  · exact ⟨‹_›, (Except.ok.inj h).symm⟩

/-- The decremented SP is one less, and never the top address. -/
theorem sp_sub_one {x : Byte} (h : x ≠ 0) : (x - 1).toNat = x.toNat - 1 ∧ (x - 1).toNat < memSize := by
  have hx : x.toNat ≠ 0 := fun h0 => h (BitVec.eq_of_toNat_eq (by simpa using h0))
  have hlt := x.isLt
  have : (x - 1).toNat = x.toNat - 1 := by
    rw [BitVec.toNat_sub, show (1 : Byte).toNat = 1 from rfl]
    omega
  exact ⟨this, by unfold memSize; omega⟩

theorem stackTop_ok {s : State} (h : s.sp.toNat < spInit.toNat) : stackTop s = .ok (s.mem.read s.sp.toNat) := by
  have : s.sp.toNat < memSize := s.sp.isLt
  simp [stackTop, Nat.not_le.2 h, memRead_ok this]

theorem stackTop_error {s : State} (h : spInit.toNat ≤ s.sp.toNat) : stackTop s = .error .stackUnderflow := by
  simp [stackTop, h]

theorem stackTop_inv {s : State} {v : Byte} (h : stackTop s = .ok v) :
    s.sp.toNat < spInit.toNat ∧ v = s.mem.read s.sp.toNat := by
  unfold stackTop at h
  split at h
  · cases h
  · exact ⟨Nat.lt_of_not_le ‹_›, (memRead_inv h).2⟩

/-! ### The end of an instruction -/

theorem complete_error (op : Byte) (s : State) (c : Condition) :
    complete op s (.error c) = .next (s.takeFatal c (some op)) := rfl

theorem complete_ok (op : Byte) (s t : State) :
    complete op s (.ok t) = .next (if setsPc op then t else t.setPc (s.pc + instructionSize op)) := rfl

/-- An instruction ends in a next state: the faulted stop, or its own effect with the PC update. -/
theorem complete_inv {op : Byte} {s t : State} {body : Except Condition State} (h : complete op s body = .next t) :
    (∃ c, body = .error c ∧ t = s.takeFatal c (some op)) ∨
      (∃ u, body = .ok u ∧ t = if setsPc op then u else u.setPc (s.pc + instructionSize op)) := by
  cases body with
  | error c => exact .inl ⟨c, rfl, (Host.Outcome.next.inj h).symm⟩
  | ok u => exact .inr ⟨u, rfl, (Host.Outcome.next.inj h).symm⟩

theorem complete_answers (op : Byte) (s : State) (body : Except Condition State) :
    ∃ t, complete op s body = .next t := by
  cases body <;> exact ⟨_, rfl⟩

/-- The faulted stop spelled out is the one operation that takes a condition. -/
theorem takeFatal_eq (s : State) (c : Condition) (op : Option Byte) :
    s.takeFatal c op = faultedStop s c.cause op c.info := rfl

theorem Condition.cause_ne (c : Condition) : c.cause ≠ .noCondition := by
  cases c <;> simp [Condition.cause]

/-- An instruction's own effect, apart from the PC update. -/
def effectOf (i : Instr) (s : State) : Except Condition State :=
  match i with
  | .hlt => .ok (s.setRun .halted)
  | .ret => retBody s
  | .push a => pushBody a s
  | .pop a => popBody a s
  | .prn a => prnBody a s
  | .call a => callBody a s
  | .jmp a => jumpTo a s
  | .jeq a => branchIf s.equalFlag a s
  | .jne a => branchIf (!s.equalFlag) a s
  | .ldi a v => ldiBody a v s
  | .add a b => aluWrite addResult a b s
  | .mul a b => aluWrite mulResult a b s
  | .mod a b => aluWrite modResult a b s
  | .cmp a b => aluCompare a b s
  | .or a b => aluWrite orResult a b s
  | .shl a b => aluWrite shlResult a b s
  | .shr a b => aluWrite shrResult a b s

/-- Every meaning is its own effect and the one PC update. -/
theorem exec_eq_complete (i : Instr) (s : State) : exec i s = complete i.opcode s (effectOf i s) := by
  cases i <;> rfl

/-- An effect of an instruction that gets the default advance (R108). -/
theorem exec_advances {i : Instr} {s u : State} (h : effectOf i s = .ok u) (hp : setsPc i.opcode = false) :
    exec i s = .next (u.setPc (s.pc + (i.operands.length + 1))) := by
  rw [exec_eq_complete, h, complete_ok, hp, instructionSize_opcode]
  rfl

/-- An effect of an instruction that sets PC itself (R109). -/
theorem exec_jumps {i : Instr} {s u : State} (h : effectOf i s = .ok u) (hp : setsPc i.opcode = true) :
    exec i s = .next u := by
  rw [exec_eq_complete, h, complete_ok, hp]
  rfl

/-- A condition raised in the execute phase (R236). -/
theorem exec_stops {i : Instr} {s : State} {c : Condition} (h : effectOf i s = .error c) :
    exec i s = .next (faultedStop s c.cause (some i.opcode) c.info) := by
  rw [exec_eq_complete, h, complete_error, takeFatal_eq]

/-! ### What the effects can do -/

theorem aluWrite_inv {f : Byte → Byte → Except Condition Byte} {a b : Operand} {s t : State}
    (h : aluWrite f a b s = .ok t) :
    ∃ ka kb v, a = regOperand ka ∧ b = regOperand kb ∧ f (s.reg ka) (s.reg kb) = .ok v ∧ t = s.setReg ka v := by
  unfold aluWrite at h
  split at h
  · cases h
  · split at h
    · cases h
    · split at h
      · cases h
      · rename_i _ ka ha _ kb hb _ v hv
        exact ⟨ka, kb, v, registerA_inv ha, registerB_inv hb, hv, (Except.ok.inj h).symm⟩

theorem aluCompare_inv {a b : Operand} {s t : State} (h : aluCompare a b s = .ok t) :
    ∃ ka kb, a = regOperand ka ∧ b = regOperand kb ∧ t = s.setFl (compareFlags (s.reg ka) (s.reg kb)) := by
  unfold aluCompare at h
  split at h
  · cases h
  · split at h
    · cases h
    · rename_i _ ka ha _ kb hb
      exact ⟨ka, kb, registerA_inv ha, registerB_inv hb, (Except.ok.inj h).symm⟩

theorem ldiBody_inv {a i : Operand} {s t : State} (h : ldiBody a i s = .ok t) :
    ∃ k v, a = regOperand k ∧ i = .byte v ∧ t = s.setReg k v := by
  cases a with
  | missing => cases h
  | byte x =>
    cases i with
    | missing => cases h
    | byte v =>
      obtain ⟨k, hk⟩ | hx := byte_cases x
      · have hx : x = BitVec.ofNat 8 k.val := by simpa [regOperand] using hk
        subst hx
        simp only [ldiBody, consult, registerIndex_regByte] at h
        exact ⟨k, v, rfl, rfl, (Except.ok.inj h).symm⟩
      · simp only [ldiBody, consult, registerIndex_error hx] at h
        cases h

theorem prnBody_inv {a : Operand} {s t : State} (h : prnBody a s = .ok t) :
    ∃ k, a = regOperand k ∧ t = s.emit (s.reg k) := by
  unfold prnBody at h
  split at h
  · cases h
  · exact ⟨_, registerA_inv ‹_›, (Except.ok.inj h).symm⟩

/-- PUSH: SP not 0; SP one less, the byte there written. -/
theorem pushBody_inv {a : Operand} {s t : State} (h : pushBody a s = .ok t) :
    ∃ k, a = regOperand k ∧ s.sp ≠ 0 ∧
      t = (s.setSp (s.sp - 1)).setMem (s.mem.write (s.sp - 1).toNat ((s.setSp (s.sp - 1)).reg k)) := by
  unfold pushBody at h
  split at h
  · cases h
  · split at h
    · cases h
    · rename_i _ k hk _ u hu
      obtain ⟨hsp, rfl⟩ := stackDown_inv hu
      obtain ⟨-, rfl⟩ := memWrite_inv h
      exact ⟨k, registerA_inv hk, hsp, by rw [State.sp_setSp, State.setSp_mem]⟩

/-- POP: SP below the top-of-stack constant; the register takes the byte at SP and SP is one more, or SP takes the byte
plus one. -/
theorem popBody_inv {a : Operand} {s t : State} (h : popBody a s = .ok t) :
    ∃ k, a = regOperand k ∧ s.sp.toNat < spInit.toNat ∧
      ((k ≠ spIndex ∧ t = (s.setReg k (s.mem.read s.sp.toNat)).setSp (s.sp + 1)) ∨
        (k = spIndex ∧ (s.mem.read s.sp.toNat).toNat + 1 ≤ spInit.toNat ∧
          t = s.setSp (s.mem.read s.sp.toNat + 1))) := by
  unfold popBody at h
  split at h
  · cases h
  · split at h
    · cases h
    · rename_i _ k hk _ v hv
      obtain ⟨hsp, rfl⟩ := stackTop_inv hv
      refine ⟨k, registerA_inv hk, hsp, ?_⟩
      split at h
      · exact .inl ⟨‹_›, (Except.ok.inj h).symm⟩
      · split at h
        · cases h
        · exact .inr ⟨by simpa using ‹¬k ≠ spIndex›, by omega, (Except.ok.inj h).symm⟩

/-- CALL: SP not 0 and a return address that fits; SP one less, the return address there, PC the target. -/
theorem callBody_inv {a : Operand} {s t : State} (h : callBody a s = .ok t) :
    ∃ k, a = regOperand k ∧ s.sp ≠ 0 ∧ s.pc + 2 < memSize ∧
      t = ((s.setSp (s.sp - 1)).setMem (s.mem.write (s.sp - 1).toNat (BitVec.ofNat 8 (s.pc + 2)))).setPc
        ((s.setSp (s.sp - 1)).reg k).toNat := by
  unfold callBody at h
  split at h
  · cases h
  · split at h
    · cases h
    · rename_i _ k hk _ u hu
      obtain ⟨hsp, rfl⟩ := stackDown_inv hu
      split at h
      · cases h
      · split at h
        · cases h
        · rename_i hret _ w hw
          obtain ⟨-, rfl⟩ := memWrite_inv hw
          refine ⟨k, registerA_inv hk, hsp, Nat.lt_of_not_le hret, ?_⟩
          rw [← Except.ok.inj h, State.sp_setSp, State.setSp_mem]
          rfl

theorem retBody_inv {s t : State} (h : retBody s = .ok t) :
    s.sp.toNat < spInit.toNat ∧ t = (s.setPc (s.mem.read s.sp.toNat).toNat).setSp (s.sp + 1) := by
  unfold retBody at h
  split at h
  · cases h
  · obtain ⟨hsp, rfl⟩ := stackTop_inv ‹_›
    exact ⟨hsp, (Except.ok.inj h).symm⟩

theorem jumpTo_inv {a : Operand} {s t : State} (h : jumpTo a s = .ok t) :
    ∃ k, a = regOperand k ∧ t = s.setPc (s.reg k).toNat := by
  unfold jumpTo at h
  split at h
  · cases h
  · exact ⟨_, registerA_inv ‹_›, (Except.ok.inj h).symm⟩

theorem branchIf_inv {taken : Bool} {a : Operand} {s t : State} (h : branchIf taken a s = .ok t) :
    (taken = true ∧ ∃ k, a = regOperand k ∧ t = s.setPc (s.reg k).toNat) ∨
      (taken = false ∧ t = s.setPc (s.pc + 2)) := by
  cases taken with
  | true => exact .inl ⟨rfl, jumpTo_inv h⟩
  | false => exact .inr ⟨rfl, (Except.ok.inj (show Except.ok (s.setPc (s.pc + 2)) = Except.ok t from h)).symm⟩

/-! ### When the effects complete -/

theorem aluWrite_ok {f : Byte → Byte → Except Condition Byte} {s : State} {ka kb : Fin 8} {v : Byte}
    (h : f (s.reg ka) (s.reg kb) = .ok v) : aluWrite f (regOperand ka) (regOperand kb) s = .ok (s.setReg ka v) := by
  simp [aluWrite, h]

theorem aluCompare_ok (s : State) (ka kb : Fin 8) :
    aluCompare (regOperand ka) (regOperand kb) s = .ok (s.setFl (compareFlags (s.reg ka) (s.reg kb))) := by
  simp [aluCompare]

theorem ldiBody_ok (s : State) (k : Fin 8) (v : Byte) :
    ldiBody (regOperand k) (.byte v) s = .ok (s.setReg k v) := by
  simp [ldiBody, regOperand, consult, registerIndex_regByte]

theorem pushBody_ok {s : State} (k : Fin 8) (h : s.sp ≠ 0) :
    pushBody (regOperand k) s =
      .ok ((s.setSp (s.sp - 1)).setMem (s.mem.write (s.sp - 1).toNat ((s.setSp (s.sp - 1)).reg k))) := by
  simp only [pushBody, registerA_regOperand, stackDown_ok h, State.sp_setSp]
  exact memWrite_ok _ (sp_sub_one h).2

theorem popBody_ok {s : State} {k : Fin 8} (hk : k ≠ spIndex) (h : s.sp.toNat < spInit.toNat) :
    popBody (regOperand k) s = .ok ((s.setReg k (s.mem.read s.sp.toNat)).setSp (s.sp + 1)) := by
  simp only [popBody, registerA_regOperand, stackTop_ok h]
  exact if_pos hk

theorem popBody_sp_ok {s : State} (h : s.sp.toNat < spInit.toNat)
    (hv : (s.mem.read s.sp.toNat).toNat + 1 ≤ spInit.toNat) :
    popBody (regOperand spIndex) s = .ok (s.setSp (s.mem.read s.sp.toNat + 1)) := by
  simp only [popBody, registerA_regOperand, stackTop_ok h]
  rw [if_neg (by decide), if_neg (Nat.not_lt.2 hv)]

theorem callBody_ok {s : State} (k : Fin 8) (h : s.sp ≠ 0) (hp : s.pc + 2 < memSize) :
    callBody (regOperand k) s =
      .ok (((s.setSp (s.sp - 1)).setMem (s.mem.write (s.sp - 1).toNat (BitVec.ofNat 8 (s.pc + 2)))).setPc
        ((s.setSp (s.sp - 1)).reg k).toNat) := by
  simp only [callBody, registerA_regOperand, stackDown_ok h, State.sp_setSp, afterOneOperand]
  rw [if_neg (Nat.not_le.2 hp), memWrite_ok _ (sp_sub_one h).2]
  rfl

theorem retBody_ok {s : State} (h : s.sp.toNat < spInit.toNat) :
    retBody s = .ok ((s.setPc (s.mem.read s.sp.toNat).toNat).setSp (s.sp + 1)) := by
  simp only [retBody, stackTop_ok h]

theorem jumpTo_ok (s : State) (k : Fin 8) : jumpTo (regOperand k) s = .ok (s.setPc (s.reg k).toNat) := by
  simp [jumpTo]

/-! ### Unknown opcodes -/

theorem unknownBody_inv {u : UnknownOpcode} {s t : State} (h : unknownBody u s = .ok t) :
    (∃ op, u = .branching op ∧ t = s.setPc (s.pc + instructionSize op)) ∨ (∃ op, u = .nonBranching op ∧ t = s) := by
  cases u with
  | alu op => cases h
  | branching op => exact .inl ⟨op, rfl, (Except.ok.inj h).symm⟩
  | nonBranching op =>
    refine .inr ⟨op, rfl, ?_⟩
    simp only [unknownBody] at h
    split at h
    · exact (Except.ok.inj h).symm
    · cases h

/-! ### The fetch -/

theorem fetchOperand_below {s : State} {addr : Nat} (h : addr < memSize) :
    fetchOperand s addr = .ok (.byte (s.mem.read addr)) := by
  simp [fetchOperand, memRead_ok h]

theorem fetchOperand_strict {s : State} {addr : Nat} (h : memSize ≤ addr) (hs : s.params.strictOperandFetch = true) :
    fetchOperand s addr = .error (.addressOutOfRange addr) := by
  simp [fetchOperand, memRead_error h, hs]

theorem fetchOperand_lenient {s : State} {addr : Nat} (h : memSize ≤ addr)
    (hs : s.params.strictOperandFetch = false) : fetchOperand s addr = .ok .missing := by
  simp [fetchOperand, memRead_error h, hs]

/-- A fetch that completes loads IR and the latches and changes nothing else. -/
theorem fetch_ready_inv {s t : State} (h : fetch s = .ready t) :
    s.pc < memSize ∧ ∃ a b, fetchOperand s (s.pc + 1) = .ok a ∧ fetchOperand s (s.pc + 2) = .ok b ∧
      t = ((s.setIr (s.mem.read s.pc)).setLatchA a).setLatchB b := by
  unfold fetch at h
  split at h
  · cases h
  · obtain ⟨hpc, rfl⟩ := memRead_inv ‹_›
    split at h
    · cases h
    · split at h
      · cases h
      · exact ⟨hpc, _, _, ‹_›, ‹_›, (Fetched.ready.inj h).symm⟩

/-- A fetch that raises has loaded at most IR and latch A. -/
theorem fetch_raised_inv {s t : State} {c : Condition} {op : Option Byte} (h : fetch s = .raised t c op) :
    ∃ ir a, t = (s.setIr ir).setLatchA a := by
  unfold fetch at h
  split at h
  · obtain ⟨rfl, -, -⟩ := Fetched.raised.inj h
    exact ⟨s.ir, s.latchA, rfl⟩
  · rename_i op' _
    split at h
    · obtain ⟨rfl, -, -⟩ := Fetched.raised.inj h
      exact ⟨op', s.latchA, rfl⟩
    · split at h
      · obtain ⟨rfl, -, -⟩ := Fetched.raised.inj h
        exact ⟨_, _, rfl⟩
      · cases h

theorem fetch_below {s : State} (h : s.pc + 2 < memSize) :
    fetch s = .ready (((s.setIr (s.mem.read s.pc)).setLatchA (.byte (s.mem.read (s.pc + 1)))).setLatchB
      (.byte (s.mem.read (s.pc + 2)))) := by
  simp [fetch, memRead_ok (show s.pc < memSize by omega), fetchOperand_below (show s.pc + 1 < memSize by omega),
    fetchOperand_below h]

theorem fetch_above {s : State} (h : memSize ≤ s.pc) :
    fetch s = .raised s (.addressOutOfRange s.pc) none := by
  simp [fetch, memRead_error h]

/-! ### The step: everything it can do -/

/-- A cycle whose fetch completes runs what was fetched. -/
theorem step_of_fetch_ready {s t : State} (hs : s.fetches) (h : fetch s = .ready t) : step s = runFetched t := by
  obtain ⟨h1, h2⟩ := hs
  simp [step, cycle, h1, h2, runCycle, h]

/-- A cycle whose fetch raises takes the condition. -/
theorem step_of_fetch_raised {s t : State} {c : Condition} {op : Option Byte} (hs : s.fetches)
    (h : fetch s = .raised t c op) : step s = .next (t.takeFatal c op) := by
  obtain ⟨h1, h2⟩ := hs
  simp [step, cycle, h1, h2, runCycle, h]

theorem step_of_halted {s : State} (h : s.run = .halted) : step s = .next s := by
  simp [step, cycle, h]

/-- A step idles in Halted, observes a halt request, stops in the fetch, or runs the fetched instruction or unknown
opcode. -/
theorem step_cases (s : State) :
    (s.run = .halted ∧ step s = .next s) ∨
    (s.run = .running ∧ s.haltRequest = true ∧ step s = .next (s.setRun .halted)) ∨
    (s.run = .running ∧ s.haltRequest = false ∧
      ((∃ t c op, fetch s = .raised t c op ∧ step s = .next (t.takeFatal c op)) ∨
        (∃ t, fetch s = .ready t ∧
          ((∃ i, decode t.ir t.latchA t.latchB = .ok i ∧ step s = exec i t) ∨
            (∃ u, decode t.ir t.latchA t.latchB = .error u ∧ step s = execUnknown u t))))) := by
  cases hr : s.run with
  | halted => exact .inl ⟨rfl, by simp [step, cycle, hr]⟩
  | running =>
    cases hh : s.haltRequest with
    | true => exact .inr (.inl ⟨rfl, rfl, by simp [step, cycle, hr, hh]⟩)
    | false =>
      refine .inr (.inr ⟨rfl, rfl, ?_⟩)
      cases hf : fetch s with
      | raised t c op => exact .inl ⟨t, c, op, rfl, by simp [step, cycle, hr, hh, runCycle, hf]⟩
      | ready t =>
        refine .inr ⟨t, rfl, ?_⟩
        cases hd : decode t.ir t.latchA t.latchB with
        | ok i => exact .inl ⟨i, rfl, by simp [step, cycle, hr, hh, runCycle, hf, runFetched, hd]⟩
        | error u => exact .inr ⟨u, rfl, by simp [step, cycle, hr, hh, runCycle, hf, runFetched, hd]⟩

end Sys2Proof.Machine
end

