-- ==== Sys2Proof/Laws/PerInstr.lean ====
section
/-! SUPPORT. Statements made for every instruction, one lemma per constructor. -/

namespace Sys2Proof.Laws.EncodedLength

/-- A well-formed instruction is encoded in operand_count + 1 bytes, as its opcode says (R70, R72). -/
def Statement (i : Instr) : Prop := WellFormed i → (encode i).length = instructionSize i.opcode

/-- One operand: present, it has one byte. -/
theorem bytes_length {o : Operand} (h : o.present = true) : o.bytes.length = 1 := by
  cases o with
  | byte v => rfl
  | missing => cases h

/-- The lemma behind all seventeen: the opcode counts the operands, and each operand has one byte. -/
theorem of_opcode (i : Instr) : Statement i := by
  intro h
  have hall : ∀ o ∈ i.operands, o.bytes.length = 1 := fun o ho =>
    bytes_length (List.all_eq_true.1 h o ho)
  have : (i.operands.flatMap Operand.bytes).length = i.operands.length := by
    rw [List.length_flatMap, List.map_congr_left hall]
    simp
  simp [encode, instructionSize, this, operandCount_opcode]

theorem hlt : Statement .hlt := of_opcode _
theorem ret : Statement .ret := of_opcode _
theorem push (a : Operand) : Statement (.push a) := of_opcode _
theorem pop (a : Operand) : Statement (.pop a) := of_opcode _
theorem prn (a : Operand) : Statement (.prn a) := of_opcode _
theorem call (a : Operand) : Statement (.call a) := of_opcode _
theorem jmp (a : Operand) : Statement (.jmp a) := of_opcode _
theorem jeq (a : Operand) : Statement (.jeq a) := of_opcode _
theorem jne (a : Operand) : Statement (.jne a) := of_opcode _
theorem ldi (a i : Operand) : Statement (.ldi a i) := of_opcode _
theorem add (a b : Operand) : Statement (.add a b) := of_opcode _
theorem mul (a b : Operand) : Statement (.mul a b) := of_opcode _
theorem mod (a b : Operand) : Statement (.mod a b) := of_opcode _
theorem cmp (a b : Operand) : Statement (.cmp a b) := of_opcode _
theorem or (a b : Operand) : Statement (.or a b) := of_opcode _
theorem shl (a b : Operand) : Statement (.shl a b) := of_opcode _
theorem shr (a b : Operand) : Statement (.shr a b) := of_opcode _

end Sys2Proof.Laws.EncodedLength
end

