-- ==== Sys2Proof/Tests/Slice0.lean ====
section
/-! SUPPORT. The model's own tests. Expected results come from spec/95_test_vectors.md (V<n>) and the rules; the witness
theorems show states that meet each statement's hypotheses. -/

namespace Sys2Proof.Tests

open Sys2Proof.Machine

/-! ### Small states -/

/-- The reset state with bytes at an address and PC there. -/
def startAt (pc : Nat) (bytes : List Byte) : State :=
  { State.reset with mem := Memory.ofBytes pc bytes, pc := pc }

/-- The same with registers set. -/
def withRegs (s : State) (rs : List (Fin 8 × Byte)) : State := rs.foldl (fun t r => t.setReg r.1 r.2) s

/-- The same with one more cell of memory. -/
def withCell (s : State) (addr : Nat) (v : Byte) : State := s.setMem (s.mem.write addr v)

def lenient : Params := { strictOperandFetch := false, unknownOpcodePolicy := .skip }

def faulting : Params := { strictOperandFetch := true, unknownOpcodePolicy := .fault }

/-- The next state of an outcome; the reset state stands for a refusal, which no test meets. -/
def after (o : StepOutcome) : State :=
  match o with
  | .next t => t
  | .fault r => nomatch r
  | .refused _ => State.reset

/-- The state one step later. -/
def next (s : State) : State := after (step s)

/-- A fault record spelled out. -/
def record (cause : Cause) (pc : Nat) (opcode : Option Byte) (info : Option Nat) : FaultRecord :=
  { cause := cause, pc := pc, opcode := opcode, info := info }

/-! ### Well-formedness: an operand byte must be there, operand a and operand b -/

theorem test_wf_present : WellFormed (.add (.byte 9) (.byte 255)) := by decide
theorem test_wf_refuses_missing_a : ¬ WellFormed (.push .missing) := by decide
theorem test_wf_refuses_missing_a_of_two : ¬ WellFormed (.ldi .missing (.byte 1)) := by decide
theorem test_wf_refuses_missing_b : ¬ WellFormed (.ldi (.byte 0) .missing) := by decide

/-! ### Decoding, each word written out from the table of R80 -/

theorem test_decode_hlt : decodeBytes [0b00000001] = .ok .hlt := by decide
theorem test_decode_ret : decodeBytes [0b00010001] = .ok .ret := by decide
theorem test_decode_push : decodeBytes [0b01000101, 0b00000110] = .ok (.push (.byte 6)) := by decide
theorem test_decode_pop : decodeBytes [0b01000110, 0b00000010] = .ok (.pop (.byte 2)) := by decide
theorem test_decode_prn : decodeBytes [0b01000111, 0b00000111] = .ok (.prn (.byte 7)) := by decide
theorem test_decode_call : decodeBytes [0b01010000, 0b00000010] = .ok (.call (.byte 2)) := by decide
theorem test_decode_jmp : decodeBytes [0b01010100, 0b00000011] = .ok (.jmp (.byte 3)) := by decide
theorem test_decode_jeq : decodeBytes [0b01010101, 0b00001001] = .ok (.jeq (.byte 9)) := by decide
theorem test_decode_jne : decodeBytes [0b01010110, 0b00000011] = .ok (.jne (.byte 3)) := by decide
theorem test_decode_ldi : decodeBytes [0b10000010, 0b00000001, 0b11111111] = .ok (.ldi (.byte 1) (.byte 0xFF)) := by decide
theorem test_decode_add : decodeBytes [0b10100000, 0b00000000, 0b00000001] = .ok (.add (.byte 0) (.byte 1)) := by decide
theorem test_decode_mul : decodeBytes [0b10100010, 0b00000000, 0b00000001] = .ok (.mul (.byte 0) (.byte 1)) := by decide
theorem test_decode_mod : decodeBytes [0b10100100, 0b00000000, 0b00000001] = .ok (.mod (.byte 0) (.byte 1)) := by decide
theorem test_decode_cmp : decodeBytes [0b10100111, 0b00000000, 0b00000010] = .ok (.cmp (.byte 0) (.byte 2)) := by decide
theorem test_decode_or : decodeBytes [0b10101010, 0b00000010, 0b00000000] = .ok (.or (.byte 2) (.byte 0)) := by decide
theorem test_decode_shl : decodeBytes [0b10101100, 0b00000000, 0b00000001] = .ok (.shl (.byte 0) (.byte 1)) := by decide
theorem test_decode_shr : decodeBytes [0b10101101, 0b00000010, 0b00000001] = .ok (.shr (.byte 2) (.byte 1)) := by decide

theorem test_decode_unknown_alu : decodeBytes [0xB0] = .error (.unknown (.alu 0xB0)) := by decide
theorem test_decode_unknown_branching : decodeBytes [0x5F, 1] = .error (.unknown (.branching 0x5F)) := by decide
theorem test_decode_unknown_plain : decodeBytes [0xC0, 1, 2] = .error (.unknown (.nonBranching 0xC0)) := by decide
theorem test_decode_nothing : decodeBytes [] = .error .noBytes := by decide

/-- Bit 0 is the opcode's; the second byte is bits 15:8. -/
theorem test_table_word : decodeTableWord 24 0x0B0282 = some (.ldi (.byte 2) (.byte 0x0B)) := by decide
theorem test_table_word_short : decodeTableWord 8 0xFF45 = some (.push (.byte 0)) := by decide
theorem test_table_word_unknown : decodeTableWord 8 0x00 = none := by decide

theorem test_fetch_word_runs : (next (State.reset.withFetchWord 24 0x0B0282)).reg 2 = 0x0B := by decide

/-! ### ALU (95_test_vectors.md section 2.1) -/

/-- V1. -/
theorem test_add_wraps : (next (withRegs (startAt 0 [0xA0, 0, 1]) [(0, 200), (1, 100)])).reg 0 = 44 := by decide
/-- V27. -/
theorem test_add_index_a_first :
    (next (startAt 0 [0xA0, 8, 9])).fault = record .registerOutOfRange 0 (some 0xA0) (some 8) := by decide
/-- V6. -/
theorem test_mul_keeps_low_byte : (next (withRegs (startAt 0 [0xA2, 0, 1]) [(0, 255), (1, 255)])).reg 0 = 1 := by decide
/-- V5. -/
theorem test_mul_255 : (next (withRegs (startAt 0 [0xA2, 0, 1]) [(0, 15), (1, 17)])).reg 0 = 255 := by decide
/-- V8. -/
theorem test_or : (next (withRegs (startAt 0 [0xAA, 2, 0]) [(2, 0x81), (0, 0x08)])).reg 2 = 0x89 := by decide
/-- V11. -/
theorem test_mod : (next (withRegs (startAt 0 [0xA4, 0, 1]) [(0, 255), (1, 16)])).reg 0 = 15 := by decide
/-- V14. -/
theorem test_mod_by_zero :
    let t := next (withRegs (startAt 6 [0xA4, 0, 1]) [(0, 7), (1, 0)])
    t.fault = record .divisionByZero 6 (some 0xA4) none ∧ t.reg 0 = 7 ∧ t.pc = 6 ∧ t.run = .halted := by decide
/-- V18. -/
theorem test_shl_loses_top_bit : (next (withRegs (startAt 0 [0xAC, 0, 1]) [(0, 0x81), (1, 1)])).reg 0 = 0x02 := by decide
/-- V17. -/
theorem test_shl_eight : (next (withRegs (startAt 0 [0xAC, 0, 1]) [(0, 1), (1, 8)])).reg 0 = 0 := by decide
/-- V19f. -/
theorem test_shr_logical : (next (withRegs (startAt 0 [0xAD, 2, 1]) [(2, 0x89), (1, 2)])).reg 2 = 0x22 := by decide
/-- V19e. -/
theorem test_shr_same_register : (next (withRegs (startAt 0 [0xAD, 0, 0]) [(0, 3)])).reg 0 = 0 := by decide
/-- V24. -/
theorem test_cmp_unsigned : (next (withRegs (startAt 0 [0xA7, 0, 1]) [(0, 255), (1, 0)])).fl = 0b010 := by decide
/-- V25. -/
theorem test_cmp_ignores_old_flags : (next ((withRegs (startAt 0 [0xA7, 0, 0]) [(0, 9)]).setFl 0b111)).fl = 0b001 := by decide

/-! ### Data movement, output and halt (section 2.2) -/

/-- V30. -/
theorem test_ldi : (next (startAt 0 [0x82, 0, 8])).reg 0 = 8 ∧ (next (startAt 0 [0x82, 0, 8])).pc = 3 := by decide
/-- V30b. -/
theorem test_ldi_index :
    (next (startAt 0 [0x82, 9, 5])).fault = record .registerOutOfRange 0 (some 0x82) (some 9) := by decide
/-- V31. -/
theorem test_prn_sp : (next (startAt 0 [0x47, 7])).output = [244] ∧ (next (startAt 0 [0x47, 7])).pc = 2 := by decide
/-- V31a. -/
theorem test_prn_index :
    (next (startAt 4 [0x47, 8])).fault = record .registerOutOfRange 4 (some 0x47) (some 8) ∧
      (next (startAt 4 [0x47, 8])).output = [] := by decide
/-- V32. -/
theorem test_hlt :
    (next (startAt 5 [0x01])).run = .halted ∧ (next (startAt 5 [0x01])).pc = 6 ∧
      (next (startAt 5 [0x01])).fault = FaultRecord.empty := by decide
/-- V32b. -/
theorem test_hlt_at_255 :
    let t := next { startAt 255 [0x01] with params := lenient }
    t.run = .halted ∧ t.pc = 256 ∧ t.fault = FaultRecord.empty := by decide

/-! ### Stack (section 2.3) -/

/-- V37. -/
theorem test_push_r7 : (next (startAt 0 [0x45, 7])).sp = 0xF3 ∧ (next (startAt 0 [0x45, 7])).mem.read 0xF3 = 0xF3 := by decide
/-- V91: PUSH over its own operand byte runs with the bytes fetched. -/
theorem test_push_over_itself :
    let t := next (withRegs (startAt 0xF2 [0x45, 0]) [(0, 0x33)])
    t.sp = 0xF3 ∧ t.mem.read 0xF3 = 0x33 ∧ t.pc = 0xF4 := by decide
/-- V38. -/
theorem test_pop_r7 : (next (withCell (withRegs (startAt 0 [0x46, 7]) [(7, 0xF3)]) 0xF3 0x80)).reg 7 = 0x81 := by decide
/-- V39. -/
theorem test_pop_r7_underflow :
    let t := next (withCell (withRegs (startAt 0 [0x46, 7]) [(7, 0xF3)]) 0xF3 0xF4)
    t.fault = record .stackUnderflow 0 (some 0x46) none ∧ t.sp = 0xF3 := by decide

/-! ### Control flow (section 2.4) -/

/-- V50. -/
theorem test_call :
    let t := next (withRegs (startAt 6 [0x50, 2]) [(2, 11)])
    t.sp = 0xF3 ∧ t.mem.read 0xF3 = 8 ∧ t.pc = 11 := by decide
/-- V55. -/
theorem test_call_return_address_too_big :
    (next { startAt 254 [0x50, 0] with params := lenient }).fault =
      record .addressOutOfRange 254 (some 0x50) (some 256) := by decide
/-- V51. -/
theorem test_ret :
    let t := next (withCell (withRegs (startAt 0 [0x11]) [(7, 0xF3)]) 0xF3 8)
    t.pc = 8 ∧ t.sp = 0xF4 := by decide
/-- V52. -/
theorem test_ret_underflow : (next (startAt 0 [0x11])).fault = record .stackUnderflow 0 (some 0x11) none := by decide
/-- V56. -/
theorem test_jmp : (next (withRegs (startAt 0 [0x54, 3]) [(3, 12)])).pc = 12 := by decide
/-- V57. -/
theorem test_jmp_index :
    (next (startAt 0 [0x54, 9])).fault = record .registerOutOfRange 0 (some 0x54) (some 9) := by decide
/-- V60. -/
theorem test_jeq_not_taken_ignores_index :
    let t := next ((startAt 25 [0x55, 9]).setFl 0b100)
    t.pc = 27 ∧ t.fault = FaultRecord.empty := by decide
/-- V65. -/
theorem test_jeq_bit_zero : (next ((withRegs (startAt 0 [0x55, 3]) [(3, 12)]).setFl 0b011)).pc = 12 := by decide
/-- V64. -/
theorem test_jne_bit_zero : (next ((withRegs (startAt 0 [0x56, 3]) [(3, 12)]).setFl 0b110)).pc = 12 := by decide
/-- V63. -/
theorem test_jne_not_taken : (next ((startAt 20 [0x56, 3]).setFl 0b001)).pc = 22 := by decide

/-! ### The cycle and unknown opcodes (section 2.5) -/

/-- V70, V72, V74, V75 and V76. -/
theorem test_unknown_skips :
    (next (startAt 0 [0x00])).pc = 1 ∧ (next (startAt 0 [0x10])).pc = 1 ∧ (next (startAt 0 [0x9F])).pc = 3 ∧
      (next (startAt 0 [0xC0])).pc = 4 ∧ (next (startAt 0 [0xD0])).pc = 4 := by decide
/-- V71. -/
theorem test_unknown_policy_fault :
    (next { startAt 0 [0x00] with params := faulting }).fault =
      record .unsupportedOperation 0 (some 0x00) none := by decide
/-- V78 and V80. -/
theorem test_unknown_alu :
    (next (startAt 0 [0xB0])).fault = record .unsupportedOperation 0 (some 0xB0) none ∧
      (next (startAt 0 [0xA1, 9, 9])).fault = record .unsupportedOperation 0 (some 0xA1) none := by decide
/-- V81. -/
theorem test_fetch_above_memory :
    (next (startAt 256 [])).fault = record .addressOutOfRange 256 none (some 256) := by decide
/-- V82. -/
theorem test_add_ending_at_255 :
    (next (startAt 253 [0xA0, 0, 1])).pc = 256 ∧ (next (startAt 253 [0xA0, 0, 1])).run = .running := by decide
/-- V32a. -/
theorem test_strict_fetch_of_hlt :
    (next (startAt 254 [0x01])).fault = record .addressOutOfRange 254 (some 0x01) (some 256) := by decide
/-- V83. -/
theorem test_halt_request :
    let t := next (startAt 9 [0x82, 0, 8]).requestHalt
    t.run = .halted ∧ t.pc = 9 ∧ t.fault = FaultRecord.empty ∧ t.reg 0 = 0 := by decide
/-- V84. -/
theorem test_lenient_skip_at_255 : (next { startAt 255 [0x10] with params := lenient }).pc = 256 := by decide

/-! ### The host's interfaces -/

/-- R271: the loader's bytes, and a program too long to load. -/
theorem test_load : ((State.reset.loadProgram [0x82, 0, 8]).map fun t => (t.mem.read 0, t.mem.read 2, t.pc)) =
    some (0x82, 8, 0) := by decide
/-- R235: the registers of the tap are those before the instruction. -/
theorem test_trace_tap :
    ((startAt 0 [0x82, 0, 8]).traceTap.map fun l => (l.pc, l.opcode, l.operandA, l.operandB, l.regs[0])) =
      some (0, 0x82, .byte 0, .byte 8, 0) := by decide

/-! ### Witnesses: states and operands that meet each statement's hypotheses, at the ends of their ranges -/

theorem witness_DecodeOfEncodeIsIdentity : WellFormed (.add (.byte 0) (.byte 255)) := by decide
theorem witness_DecodedBytesBeginWithEncoding :
    decodeBytes [0xA0, 0, 255, 7] = .ok (.add (.byte 0) (.byte 255)) ∧ WellFormed (.add (.byte 0) (.byte 255)) := by decide
theorem witness_EveryOpcodeByteClassified :
    (0xA1 : Byte) ∉ knownOpcodes ∧ (0x10 : Byte) ∉ knownOpcodes ∧ (0x00 : Byte) ∉ knownOpcodes := by decide
theorem witness_LoaderWritesProgramFromZero :
    (List.replicate 256 (1 : Byte)).length ≤ 256 ∧ 256 < (List.replicate 257 (1 : Byte)).length ∧
      (0 : Nat) < [(1 : Byte)].length ∧ [(1 : Byte)].length ≤ 1 :=
  ⟨by rw [List.length_replicate], by rw [List.length_replicate]; decide, by decide, by decide⟩
theorem witness_MemoryAccessContract : (255 : Nat) ≤ 255 ∧ (255 : Nat) < 256 ∧ (254 : Nat) ≠ 255 := by decide
theorem witness_StackPointerIsRegisterSeven : (0 : Fin 8) ≠ 7 := by decide
theorem witness_StepRunsTheDecodedInstruction :
    let s := startAt 253 [0xA0, 0, 1]
    s.fetches ∧ s.pc + 2 ≤ 255 ∧
      decodeBytes [s.mem.read s.pc, s.mem.read (s.pc + 1), s.mem.read (s.pc + 2)] = .ok (.add (.byte 0) (.byte 1)) := by decide
theorem witness_LenientFetchRunsAtTheTop :
    ({ startAt 254 [0x50, 0] with params := lenient } : State).fetches ∧ lenient.strictOperandFetch = false ∧
      (startAt 254 [0x50, 0]).pc = 254 ∧
      decodeBytes [(startAt 254 [0x50, 0]).mem.read 254, (startAt 254 [0x50, 0]).mem.read 255] = .ok (.call (.byte 0)) ∧
    ({ startAt 255 [0x82] with params := lenient } : State).fetches ∧ (startAt 255 [0x82]).pc = 255 ∧
      decodeBytes [(startAt 255 [0x82]).mem.read 255] = .ok (.ldi .missing .missing) := by decide
theorem witness_StrictFetchFaultsAtTheTop :
    (startAt 254 [0x01]).fetches ∧ (startAt 254 [0x01]).params.strictOperandFetch = true ∧ (startAt 254 [0x01]).pc = 254 ∧
    (startAt 255 [0x01]).fetches ∧ (startAt 255 [0x01]).params.strictOperandFetch = true ∧
      (startAt 255 [0x01]).pc = 255 := by decide
theorem witness_OpcodeFetchReadsIrOrFaults :
    ((startAt 255 [0x01]).fetches ∧ (startAt 255 [0x01]).pc ≤ 255) ∧
      ((startAt 256 []).fetches ∧ 255 < (startAt 256 []).pc) := by decide
theorem witness_HaltedCoreKeepsItsState : (State.reset.setRun .halted).run = .halted := by decide
theorem witness_HaltRequestStopsBeforeTheFetch : (startAt 259 []).run = .running := by decide
theorem witness_UnknownAluOpcodeRaises :
    ∃ t, (startAt 0 [0xB0]).fetches ∧ fetch (startAt 0 [0xB0]) = .ready t ∧
      (startAt 0 [0xB0]).mem.read 0 ∉ knownOpcodes ∧ ((startAt 0 [0xB0]).mem.read 0).getLsbD 5 = true :=
  ⟨_, by decide, rfl, by decide, by decide⟩
theorem witness_UnknownBranchingOpcodeSkips :
    ∃ t, (startAt 0 [0xD0]).fetches ∧ fetch (startAt 0 [0xD0]) = .ready t ∧
      (startAt 0 [0xD0]).mem.read 0 ∉ knownOpcodes ∧ ((startAt 0 [0xD0]).mem.read 0).getLsbD 5 = false ∧
      ((startAt 0 [0xD0]).mem.read 0).getLsbD 4 = true :=
  ⟨_, by decide, rfl, by decide, by decide, by decide⟩
theorem witness_UnknownPlainOpcodeFollowsPolicy :
    ∃ t u, (startAt 0 [0xC0]).fetches ∧ fetch (startAt 0 [0xC0]) = .ready t ∧
      (startAt 0 [0xC0]).mem.read 0 ∉ knownOpcodes ∧ ((startAt 0 [0xC0]).mem.read 0).getLsbD 5 = false ∧
      ((startAt 0 [0xC0]).mem.read 0).getLsbD 4 = false ∧ (startAt 0 [0xC0]).params.unknownOpcodePolicy = .skip ∧
      fetch { startAt 0 [0xC0] with params := faulting } = .ready u ∧
      ({ startAt 0 [0xC0] with params := faulting } : State).params.unknownOpcodePolicy = .fault :=
  ⟨_, _, by decide, rfl, by decide, by decide, by decide, by decide, rfl, by decide⟩
/-- The last PC of the first clause, both of the second, the first of each half of the third, and both of the fourth. -/
theorem witness_TraceTapShowsTheFetchedCycle :
    ((startAt 253 [0x01]).fetches ∧ (startAt 253 [0x01]).pc + 2 ≤ 255) ∧
    (({ startAt 254 [0x50, 0] with params := lenient } : State).fetches ∧ (startAt 254 [0x50, 0]).pc = 254 ∧
      ({ startAt 255 [0x82] with params := lenient } : State).fetches ∧ (startAt 255 [0x82]).pc = 255 ∧
      lenient.strictOperandFetch = false) ∧
    ((startAt 256 []).fetches ∧ 255 < (startAt 256 []).pc ∧ (startAt 254 [0x01]).fetches ∧
      (startAt 254 [0x01]).params.strictOperandFetch = true ∧ 253 < (startAt 254 [0x01]).pc) ∧
    ((State.reset.setRun .halted).run = .halted ∧ State.reset.requestHalt.haltRequest = true) := by decide

/-- An index just above the registers, and the largest: LDI, PRN, JMP, IndexAboveSevenStopsPrecisely and AluChecksIndexBeforeConsultingB. -/
theorem witness_index_above_seven : 8 ≤ (8 : Byte).toNat ∧ 8 ≤ (255 : Byte).toNat := by decide
/-- An index above 7 in either operand: the seven ALU statements and AluIndexAboveSevenStopsPrecisely. -/
theorem witness_alu_index_above_seven :
    (8 ≤ (8 : Byte).toNat ∨ 8 ≤ (0 : Byte).toNat) ∧ (8 ≤ (7 : Byte).toNat ∨ 8 ≤ (8 : Byte).toNat) := by decide
theorem witness_ModWritesTheRemainder : (withRegs State.reset [(1, 1)]).reg 1 ≠ 0 ∧ State.reset.reg 1 = 0 := by decide
theorem witness_ModByZeroStopsPrecisely : State.reset.reg 1 = 0 := by decide
theorem witness_ShlShiftsByTheWholeByte : 8 ≤ ((withRegs State.reset [(1, 8)]).reg 1).toNat := by decide
theorem witness_ShrShiftsByTheWholeByte : 8 ≤ ((withRegs State.reset [(1, 255)]).reg 1).toNat := by decide
/-- IndexAboveSevenStopsPrecisely, MissingOperandRaisesWhereConsulted, JeqBranchesOnEqual and JneBranchesOnNotEqual. -/
theorem witness_equal_flag : (State.reset.setFl 0b011).fl[0] = true ∧ (State.reset.setFl 0b110).fl[0] = false := by decide
theorem witness_PushStoresBelowTheStackPointer :
    (withRegs State.reset [(7, 1)]).sp ≠ 0 ∧ (withRegs State.reset [(7, 255)]).sp ≠ 0 ∧
      (withRegs State.reset [(7, 0)]).sp = 0 := by decide
theorem witness_PopLoadsFromTheStackPointer :
    ((0 : Fin 8) ≠ 7 ∧ (withRegs State.reset [(7, 0xF3)]).sp.toNat < 0xF4) ∧ 0xF4 ≤ State.reset.sp.toNat := by decide
theorem witness_PopIntoStackPointerAddsOne :
    let s := withRegs State.reset [(7, 0xF3)]
    s.sp.toNat < 0xF4 ∧ ((withCell s 0xF3 0xF3).mem.read s.sp.toNat).toNat < 0xF4 ∧
      0xF4 ≤ ((withCell s 0xF3 0xF4).mem.read s.sp.toNat).toNat := by decide
theorem witness_PushThenPopRestores :
    (0 : Fin 8) ≠ 7 ∧ State.reset.sp ≠ 0 ∧ State.reset.sp.toNat ≤ 0xF4 ∧ (withRegs State.reset [(7, 1)]).sp ≠ 0 ∧
      (withRegs State.reset [(7, 1)]).sp.toNat ≤ 0xF4 ∧ (State.reset.setPc 253).pc ≤ 253 := by decide
theorem witness_CallPushesTheReturnAddress :
    (State.reset.sp ≠ 0 ∧ (State.reset.setPc 253).pc + 2 ≤ 255) ∧ 255 < (State.reset.setPc 254).pc + 2 ∧
      (withRegs State.reset [(7, 0)]).sp = 0 := by decide
theorem witness_RetPopsTheProgramCounter :
    (withRegs State.reset [(7, 0xF3)]).sp.toNat < 0xF4 ∧ 0xF4 ≤ State.reset.sp.toNat := by decide
theorem witness_CallThenRetResumes :
    let s := State.reset.setPc 253
    let t := after (exec (.call (regOperand 2)) s)
    s.sp ≠ 0 ∧ s.sp.toNat ≤ 0xF4 ∧ s.pc + 2 ≤ 255 ∧ t.sp = 0xF3 ∧ t.mem.read t.sp.toNat = 255 := by decide

theorem witness_RegisterFrameOfEveryInstruction :
    ∃ t, exec (.ldi (regOperand 0) (.byte 9)) State.reset = .next t ∧ ¬ writesReg (.ldi (regOperand 0) (.byte 9)) 1 :=
  ⟨_, rfl, by unfold writesReg; decide⟩
theorem witness_MemoryFrameOfEveryInstruction :
    ∃ t, exec (.push (regOperand 0)) State.reset = .next t ∧
      storedAddress (.push (regOperand 0)) State.reset ≠ some 0xF4 :=
  ⟨_, rfl, by decide⟩
theorem witness_SystemFrameOfEveryInstruction :
    ∃ t, exec (.jmp (regOperand 7)) State.reset = .next t ∧ t.fault = State.reset.fault ∧
      State.reset.fault.cause = .noCondition ∧ (.jmp (regOperand 7) : Instr) ≠ .hlt :=
  ⟨_, rfl, by decide, by decide, by decide⟩
theorem witness_FatalConditionIsPrecise :
    ∃ t, exec .ret State.reset = .next t ∧ t.fault ≠ State.reset.fault :=
  ⟨_, rfl, by decide⟩
theorem witness_OnlyCmpChangesFlags :
    ∃ t, step (startAt 0 [0xA7, 0, 0]) = .next t ∧ t.fl ≠ (startAt 0 [0xA7, 0, 0]).fl :=
  ⟨_, rfl, by decide⟩
theorem witness_OnlyPrnAppendsOutput : ∃ t, step (startAt 0 [0x47, 7]) = .next t := ⟨_, rfl⟩
theorem witness_OnlyPushAndCallChangeMemory :
    ∃ t, step (startAt 0 [0x45, 7]) = .next t ∧ t.mem.read 0xF3 ≠ (startAt 0 [0x45, 7]).mem.read 0xF3 :=
  ⟨_, rfl, by decide⟩
theorem witness_FlagsActOnlyThroughEqual :
    ∃ t u, (0b001 : FlagWord)[0] = (0b111 : FlagWord)[0] ∧
      exec (.cmp (regOperand 0) (regOperand 1)) { State.reset with fl := 0b001 } = .next t ∧
      exec (.cmp (regOperand 0) (regOperand 1)) { State.reset with fl := 0b111 } = .next u ∧
      t.fault = State.reset.fault ∧ State.reset.fault.cause = .noCondition :=
  ⟨_, _, by decide, rfl, rfl, by decide, by decide⟩
theorem witness_InvariantKeptByEveryStep : ∃ t, State.reset.Inv ∧ step State.reset = .next t := ⟨_, by decide, rfl⟩
theorem witness_FaultRecordWrittenOnce :
    let s := next (startAt 0 [0x11])
    s.Inv ∧ s.fault.cause ≠ .noCondition ∧ after (core.run 2 s) = s := by decide
/-- A step that halts by HLT, one by a halt request and one by a fatal condition, each from an empty record. -/
theorem witness_OnlyThreeWaysToHalt :
    ∃ t u v, (step (startAt 0 [0x01]) = .next t ∧ t.run = .halted) ∧
      (step (startAt 0 [0x10]).requestHalt = .next u ∧ u.run = .halted) ∧
      (step (startAt 0 [0x11]) = .next v ∧ v.run = .halted) ∧ (startAt 0 [0x01]).fault.cause = .noCondition ∧
      (startAt 0 [0x01]).run = .running :=
  ⟨_, _, _, ⟨rfl, by decide⟩, ⟨rfl, by decide⟩, ⟨rfl, by decide⟩, by decide, by decide⟩
theorem witness_FetchReadsTheOpcodeOrRaises :
    (startAt 255 [0x01]).pc ≤ 255 ∧ 255 < (startAt 256 []).pc ∧ (startAt 256 []).fetches := by decide
theorem witness_ParametersAndInputNeverWritten : ∃ t, step State.reset = .next t := ⟨_, rfl⟩

end Sys2Proof.Tests
end

section
/-! PROOFS of the memory family: the access primitives of R51. -/

namespace Sys2Proof.Proofs.MemoryAccess
open Sys2Proof.Machine

/-- The addresses R51 writes as "up to 255" are those of the memory. -/
theorem lt_memSize_iff_le_255 {addr : Nat} : addr < memSize ↔ addr ≤ 255 := Nat.lt_succ_iff

/-- R51's "changes nothing else", beside memory: a memory update leaves every other part of the state. -/
theorem setMem_frame (s : State) (m : Memory) :
    (s.setMem m).regs = s.regs ∧ (s.setMem m).fl = s.fl ∧ (s.setMem m).pc = s.pc ∧
      (s.setMem m).output = s.output ∧ SameSystem s (s.setMem m) := by
  simp [SameSystem]

/-- The byte a write has put at an address that exists is what a read there gives. -/
theorem memRead_setMem_write_same (s : State) {addr : Nat} (v : Byte) (h : addr < memSize) :
    memRead (s.setMem (s.mem.write addr v)) addr = .ok v := by
  rw [memRead_ok h, State.setMem_mem, Memory.read_write_same]

/-- Settles O9: below the memory's size a read and a write answer, the written state differs in one cell only; from there on
both raise. -/
theorem memoryAccessContract : Obligations.MemoryAccessContract := by
  refine ⟨fun s addr h => memRead_ok (lt_memSize_iff_le_255.2 h), fun s addr v h => ?_, fun s addr v h => ?_⟩
  · have haddr : addr < memSize := lt_memSize_iff_le_255.2 h
    refine ⟨s.setMem (s.mem.write addr v), memWrite_ok v haddr, memRead_setMem_write_same s v haddr,
      fun other hne => ?_, setMem_frame s _⟩
    rw [State.setMem_mem, Memory.read_write_other s.mem hne]
  · have haddr : memSize ≤ addr := h
    exact ⟨memRead_error haddr, memWrite_error v haddr⟩

end Sys2Proof.Proofs.MemoryAccess
end

section
/-! PROOFS of the cycle family: the opcode fetch of R103. -/

namespace Sys2Proof.Proofs.OpcodeFetch
open Sys2Proof.Machine
open Sys2Proof.Proofs.MemoryAccess (lt_memSize_iff_le_255)

/-! ### The fetch after its opcode byte is read, by what the operand fetches answer -/

theorem fetch_of_operandA_error {s : State} {c : Condition} (h : s.pc < memSize)
    (ha : fetchOperand s (s.pc + 1) = .error c) :
    fetch s = .raised (s.setIr (s.mem.read s.pc)) c (some (s.mem.read s.pc)) := by
  simp [fetch, memRead_ok h, ha]

theorem fetch_of_operandB_error {s : State} {a : Operand} {c : Condition} (h : s.pc < memSize)
    (ha : fetchOperand s (s.pc + 1) = .ok a) (hb : fetchOperand s (s.pc + 2) = .error c) :
    fetch s = .raised ((s.setIr (s.mem.read s.pc)).setLatchA a) c (some (s.mem.read s.pc)) := by
  simp [fetch, memRead_ok h, ha, hb]

theorem fetch_of_operands_ok {s : State} {a b : Operand} (h : s.pc < memSize)
    (ha : fetchOperand s (s.pc + 1) = .ok a) (hb : fetchOperand s (s.pc + 2) = .ok b) :
    fetch s = .ready (((s.setIr (s.mem.read s.pc)).setLatchA a).setLatchB b) := by
  simp [fetch, memRead_ok h, ha, hb]

/-- R103: IR is loaded before the operands are fetched, so it holds the byte at PC however they end. -/
theorem fetch_loads_ir {s : State} (h : s.pc < memSize) :
    ∃ t, (fetch s = .ready t ∨ ∃ c op, fetch s = .raised t c op) ∧ t.ir = s.mem.read s.pc := by
  cases ha : fetchOperand s (s.pc + 1) with
  | error c => exact ⟨_, .inr ⟨_, _, fetch_of_operandA_error h ha⟩, by simp⟩
  | ok a =>
    cases hb : fetchOperand s (s.pc + 2) with
    | error c => exact ⟨_, .inr ⟨_, _, fetch_of_operandB_error h ha hb⟩, by simp⟩
    | ok b => exact ⟨_, .inl (fetch_of_operands_ok h ha hb), by simp⟩

/-- R103: a cycle that fetches from above the memory stops on its own state, with no opcode in the record. -/
theorem step_of_pc_above {s : State} (hs : s.fetches) (h : memSize ≤ s.pc) :
    step s = .next (s.takeFatal (.addressOutOfRange s.pc) none) :=
  step_of_fetch_raised hs (fetch_above h)

/-- Settles O60: below the memory's size IR is loaded before either operand fetch can raise; from there on the opcode read itself
raises, and the cycle takes that condition. -/
theorem fetchReadsTheOpcodeOrRaises : Obligations.FetchReadsTheOpcodeOrRaises := by
  refine ⟨fun s h => fetch_loads_ir (lt_memSize_iff_le_255.2 h), fun s h => ?_⟩
  have hpc : memSize ≤ s.pc := h
  exact ⟨fetch_above hpc, fun hs => ⟨_, step_of_pc_above hs hpc, rfl, rfl, rfl⟩⟩

end Sys2Proof.Proofs.OpcodeFetch
end

section
/-! PROOFS of the stack family: PUSH and CALL push on the one stack that POP and RET take from (R185). -/

namespace Sys2Proof.Proofs.SharedStack
open Sys2Proof.Machine

/-- `t` is a state just after a push of `v` from `s`: SP is one less, the byte there is `v`, the other registers are as
before. It does not say whether PUSH or CALL pushed. -/
structure PushedFrom (s t : State) (v : Byte) : Prop where
  sp_eq : t.sp = s.sp - 1
  top_eq : t.mem.read t.sp.toNat = v
  regs_eq : SameRegsBut [spIndex] s t

variable {s t : State} {v : Byte}

/-- The write PUSH and CALL share: SP is decremented, then the byte goes to the new SP. -/
theorem pushedFrom_store (s : State) (v : Byte) :
    PushedFrom s ((s.setSp (s.sp - 1)).setMem (s.mem.write (s.sp - 1).toNat v)) v where
  sp_eq := by simp
  top_eq := by simp
  regs_eq := fun _ hj => State.reg_setReg_other s (List.ne_of_not_mem_cons hj) _

/-- A push is about registers and memory only, so it stands whatever PC becomes. -/
theorem PushedFrom.setPc (h : PushedFrom s t v) (pc : Nat) : PushedFrom s (t.setPc pc) v :=
  ⟨h.sp_eq, h.top_eq, h.regs_eq⟩

/-! ### The two instructions that push -/

theorem exec_push_pushes {k : Fin 8} (hk : k ≠ spIndex) (hsp : s.sp ≠ 0) :
    ∃ t, exec (.push (regOperand k)) s = .next t ∧ PushedFrom s t (s.reg k) := by
  have hread : (s.setSp (s.sp - 1)).reg k = s.reg k := State.reg_setReg_other s hk _
  refine ⟨_, exec_advances (pushBody_ok k hsp) (setsPc_opcode _), ?_⟩
  rw [hread]
  exact (pushedFrom_store s _).setPc _

theorem exec_call_pushes (k : Fin 8) (hsp : s.sp ≠ 0) (hpc : s.pc + 2 < memSize) :
    ∃ t, exec (.call (regOperand k)) s = .next t ∧ PushedFrom s t (BitVec.ofNat 8 (s.pc + 2)) :=
  ⟨_, exec_jumps (callBody_ok k hsp hpc) (setsPc_opcode _), (pushedFrom_store s _).setPc _⟩

/-! ### The two instructions that take what was pushed -/

/-- After a push from an SP of 1 up to the top-of-stack constant, SP is below that constant: nothing underflows. -/
theorem PushedFrom.sp_lt_spInit (h : PushedFrom s t v) (hsp : s.sp ≠ 0) (hle : s.sp.toNat ≤ spInit.toNat) :
    t.sp.toNat < spInit.toNat := by
  have hpos : 0 < spInit.toNat := by decide
  rw [h.sp_eq, (sp_sub_one hsp).1]
  omega

/-- The increment of POP and RET undoes the decrement of the push. -/
theorem PushedFrom.sp_add_one (h : PushedFrom s t v) : t.sp + 1 = s.sp := by
  rw [h.sp_eq, BitVec.sub_add_cancel]

theorem exec_pop_takes_pushed {k : Fin 8} (h : PushedFrom s t v) (hk : k ≠ spIndex) (hsp : s.sp ≠ 0)
    (hle : s.sp.toNat ≤ spInit.toNat) :
    ∃ u, exec (.pop (regOperand k)) t = .next u ∧ u.reg k = v ∧ u.sp = s.sp ∧ SameRegsBut [k] s u := by
  refine ⟨_, exec_advances (popBody_ok hk (h.sp_lt_spInit hsp hle)) (setsPc_opcode _), ?_, ?_,
    fun j hj => ?_⟩
  · simp [State.reg_setSp, Ne.symm hk, h.top_eq]
  · simpa using h.sp_add_one
  · by_cases hjsp : j = spIndex
    · subst hjsp
      simpa using h.sp_add_one
    · have hjk : j ≠ k := List.ne_of_not_mem_cons hj
      simp [State.reg_setSp, Ne.symm hjsp, State.reg_setReg_other t hjk, h.regs_eq j (by simpa using hjsp)]

theorem exec_ret_takes_pushed (h : PushedFrom s t v) (hsp : s.sp ≠ 0) (hle : s.sp.toNat ≤ spInit.toNat) :
    ∃ u, exec .ret t = .next u ∧ u.pc = v.toNat ∧ u.sp = s.sp := by
  refine ⟨_, exec_jumps (retBody_ok (h.sp_lt_spInit hsp hle)) (setsPc_opcode _), ?_, ?_⟩
  · simp [h.top_eq]
  · simpa using h.sp_add_one

/-- A return address CALL accepts is the byte it pushes. -/
theorem toNat_returnAddress {pc : Nat} (hpc : pc + 2 < memSize) : (BitVec.ofNat 8 (pc + 2)).toNat = pc + 2 :=
  (BitVec.toNat_ofNat _ _).trans (Nat.mod_eq_of_lt hpc)

/-- Settles O39: each of PUSH and CALL leaves a pushed byte, and each of POP and RET takes it, whichever pushed it. -/
theorem pushThenPopRestores : Obligations.PushThenPopRestores := by
  refine ⟨fun s k hk hsp hle => ?_, fun s k hk hsp hle => ?_, fun s k j hj hpc hsp hle => ?_⟩
  · obtain ⟨t, hpush, ht⟩ := exec_push_pushes hk hsp
    obtain ⟨u, hpop, hreg, hu, hrest⟩ := exec_pop_takes_pushed ht hk hsp hle
    refine ⟨t, u, hpush, hpop, hreg, hu, fun j _ => ?_⟩
    by_cases hjk : j = k
    · rw [hjk, hreg]
    · exact hrest j (by simpa using hjk)
  · obtain ⟨t, hpush, ht⟩ := exec_push_pushes hk hsp
    exact ⟨t, (exec_ret_takes_pushed ht hsp hle).imp fun u hu => ⟨hpush, hu⟩⟩
  · have hret : s.pc + 2 < memSize := by unfold memSize; omega
    obtain ⟨t, hcall, ht⟩ := exec_call_pushes k hsp hret
    obtain ⟨u, hpop, hreg, hu, -⟩ := exec_pop_takes_pushed ht hj hsp hle
    exact ⟨t, u, hcall, hpop, by rw [hreg, toNat_returnAddress hret], hu⟩

end Sys2Proof.Proofs.SharedStack
end

section
/-! PROOFS of the encoding: decoder and encoder are inverse on well-formed instructions, and the opcode bytes are
classified (30_encoding.md). -/

namespace Sys2Proof.Proofs.Encoding

/-! ### One operand byte -/

/-- The operand of an operand's own byte, whatever bytes follow. -/
theorem operandOf_bytes_append {o : Operand} (h : o.present = true) (rest : List Byte) :
    operandOf (o.bytes ++ rest) = o ∧ (o.bytes ++ rest).tail = rest := by
  cases o with
  | byte v => exact ⟨rfl, rfl⟩
  | missing => cases h

/-- An operand that is there is the first byte of its list. -/
theorem bytes_operandOf_append_tail {bytes : List Byte} (h : (operandOf bytes).present = true) :
    bytes = (operandOf bytes).bytes ++ bytes.tail := by
  cases bytes with
  | nil => cases h
  | cons v rest => rfl

/-! ### The operands of an instruction -/

theorem operands_length_le (i : Instr) : i.operands.length ≤ 2 := by
  cases i <;> simp [Instr.operands]

/-- At most two operands that are there are read back from their bytes. -/
theorem operands_of_bytes {os : List Operand} (hlen : os.length ≤ 2) (h : ∀ o ∈ os, o.present = true)
    (rest : List Byte) :
    os = [operandOf (os.flatMap Operand.bytes ++ rest),
      operandOf (os.flatMap Operand.bytes ++ rest).tail].take os.length := by
  match os with
  | [] => rfl
  | [o] =>
    obtain ⟨hhead, -⟩ := operandOf_bytes_append (h o (by simp)) rest
    simp [hhead]
  | [o, o'] =>
    obtain ⟨hhead, htail⟩ := operandOf_bytes_append (h o (by simp)) (o'.bytes ++ rest)
    obtain ⟨hhead', -⟩ := operandOf_bytes_append (h o' (by simp)) rest
    simp [hhead, htail, hhead']
  | _ :: _ :: _ :: _ => simp at hlen

/-- The operands read from a list of bytes, all there, are the first bytes of the list. -/
theorem bytes_of_operands (n : Nat) (bytes : List Byte)
    (h : ∀ o ∈ [operandOf bytes, operandOf bytes.tail].take n, o.present = true) :
    ∃ rest, bytes = ([operandOf bytes, operandOf bytes.tail].take n).flatMap Operand.bytes ++ rest := by
  match n with
  | 0 => exact ⟨bytes, rfl⟩
  | 1 => exact ⟨bytes.tail, by simpa using bytes_operandOf_append_tail (h _ (by simp))⟩
  | n + 2 =>
    have hhead := bytes_operandOf_append_tail (h (operandOf bytes) (by simp))
    have htail := bytes_operandOf_append_tail (h (operandOf bytes.tail) (by simp))
    refine ⟨bytes.tail.tail, ?_⟩
    calc bytes = (operandOf bytes).bytes ++ bytes.tail := hhead
      _ = (operandOf bytes).bytes ++ ((operandOf bytes.tail).bytes ++ bytes.tail.tail) := congrArg _ htail
      _ = _ := by simp

/-! ### The decoder -/

/-- The opcode byte of an instruction decodes to it where its operands come from the operands given: the converse of
`decode_inv`. -/
theorem decode_opcode {i : Instr} {a b : Operand} (h : i.operands = [a, b].take i.operands.length) :
    decode i.opcode a b = .ok i := by
  cases i <;> simp [Instr.operands] at h <;> simp [h, decode, Instr.opcode]

theorem decodeBytes_cons_ok_iff {op : Byte} {rest : List Byte} {i : Instr} :
    decodeBytes (op :: rest) = .ok i ↔ decode op (operandOf rest) (operandOf rest.tail) = .ok i := by
  cases h : decode op (operandOf rest) (operandOf rest.tail) <;> simp [decodeBytes, h]

/-- Settles O1: the opcode byte selects the instruction, and each of its operands is the byte its encoding gave it. -/
theorem decodeOfEncodeIsIdentity : Obligations.DecodeOfEncodeIsIdentity := by
  intro i rest hwf
  have hpresent : ∀ o ∈ i.operands, o.present = true := List.all_eq_true.1 hwf
  exact decodeBytes_cons_ok_iff.2 (decode_opcode (operands_of_bytes (operands_length_le i) hpresent rest))

/-- Settles O2: the first byte is the instruction's opcode, and each operand that is there is the next byte. -/
theorem decodedBytesBeginWithEncoding : Obligations.DecodedBytesBeginWithEncoding := by
  intro bytes i hdecode hwf
  cases bytes with
  | nil => cases hdecode
  | cons op tail =>
    obtain ⟨hop, hoperands⟩ := decode_inv (decodeBytes_cons_ok_iff.1 hdecode)
    have hpresent : ∀ o ∈ i.operands, o.present = true := List.all_eq_true.1 hwf
    rw [hoperands] at hpresent
    obtain ⟨rest, hrest⟩ := bytes_of_operands _ _ hpresent
    rw [← hoperands] at hrest
    exact ⟨rest, by rw [hop, encode, List.cons_append, ← hrest]⟩

/-- Settles O3, by evaluation of the decoder on the spec's words. -/
theorem specWordsDecode : Obligations.SpecWordsDecode := by
  unfold Obligations.SpecWordsDecode
  decide

/-! ### The classes of the opcode byte -/

open Sys2Proof.Machine (knownOpcodes)

theorem opcode_mem_knownOpcodes (i : Instr) : i.opcode ∈ knownOpcodes := by
  cases i <;> simp [Instr.opcode, knownOpcodes]

/-- Every byte of the table is the opcode of an instruction with the operands given. -/
theorem decode_known {op : Byte} (h : op ∈ knownOpcodes) (a b : Operand) : ∃ i, decode op a b = .ok i := by
  simp only [knownOpcodes, List.mem_cons, List.not_mem_nil, or_false] at h
  rcases h with rfl | rfl | rfl | rfl | rfl | rfl | rfl | rfl | rfl | rfl | rfl | rfl | rfl | rfl | rfl | rfl | rfl <;>
    exact ⟨_, rfl⟩

theorem decode_unknown {op : Byte} (h : op ∉ knownOpcodes) (a b : Operand) :
    decode op a b = .error (classifyUnknown op) := by
  cases hd : decode op a b with
  | ok i =>
    obtain ⟨rfl, -⟩ := decode_inv hd
    exact absurd (opcode_mem_knownOpcodes i) h
  | error u => rw [decode_error_inv hd]

/-- Settles O4: the table's bytes decode and no other does, its class being `classifyUnknown`; the three counts are by
evaluation over the 256 bytes. -/
theorem everyOpcodeByteClassified : Obligations.EveryOpcodeByteClassified := by
  refine ⟨fun op a b => ⟨fun ⟨i, hi⟩ => ?_, fun h => decode_known h a b⟩, fun op a b h => decode_unknown h a b,
    ?_, ?_, ?_⟩
  · rw [(decode_inv hi).1]
    exact opcode_mem_knownOpcodes i
  · decide +kernel
  · decide +kernel
  · decide +kernel

/-- The instructions of the ALU class (R79). -/
theorem isAlu_opcode (i : Instr) :
    isAlu i.opcode = match i with
      | .add _ _ | .mul _ _ | .mod _ _ | .cmp _ _ | .or _ _ | .shl _ _ | .shr _ _ => true
      | .hlt | .ret | .push _ | .pop _ | .prn _ | .call _ | .jmp _ | .jeq _ | .jne _ | .ldi _ _ => false := by
  cases i <;> simp [isAlu, Instr.opcode]

/-- Settles O5: for each instruction, what `operandCount`, `isAlu` and `setsPc` read in its opcode byte. -/
theorem opcodeFieldsMatchInstruction : Obligations.OpcodeFieldsMatchInstruction := by
  intro i
  cases i <;> exact ⟨operandCount_opcode _, isAlu_opcode _, setsPc_opcode _⟩

end Sys2Proof.Proofs.Encoding
end

section
/-! PROOFS of the frames: what an instruction that answers a next state may have changed, for all seventeen. -/

namespace Sys2Proof.Proofs.Frames
open Sys2Proof.Machine

/-- The states an instruction's own effect can answer, by the storage it writes. Values are left open; the frames and
the invariant need only where they go. -/
inductive Effect (s : State) : Instr → State → Prop
  | halts : Effect s .hlt (s.setRun .halted)
  | writes {i : Instr} {k : Fin 8} (v : Byte) (hk : writesReg i k) : Effect s i (s.setReg k v)
  | compares (a b : Operand) (v : FlagWord) : Effect s (.cmp a b) (s.setFl v)
  | prints (k : Fin 8) : Effect s (.prn (regOperand k)) (s.emit (s.reg k))
  | pushes (a : Operand) (v : Byte) (hsp : s.sp ≠ 0) :
      Effect s (.push a) ((s.setSp (s.sp - 1)).setMem (s.mem.write (s.sp - 1).toNat v))
  | pops (k : Fin 8) (v sp : Byte) : Effect s (.pop (regOperand k)) ((s.setReg k v).setSp sp)
  | calls (a : Operand) (v target : Byte) (hsp : s.sp ≠ 0) :
      Effect s (.call a) (((s.setSp (s.sp - 1)).setMem (s.mem.write (s.sp - 1).toNat v)).setPc target.toNat)
  | returns (target sp : Byte) : Effect s .ret ((s.setPc target.toNat).setSp sp)
  | branches {i : Instr} {pc : Nat} (hpc : pc < memSize ∨ pc = s.pc + 2) : Effect s i (s.setPc pc)

variable {i : Instr} {s t u : State}

/-! ### Every effect is one of these -/

theorem effect_of_aluWrite (f : Byte → Byte → Except Condition Byte) {a b : Operand}
    (hw : ∀ k, a = regOperand k → writesReg i k) (h : aluWrite f a b s = .ok u) : Effect s i u := by
  obtain ⟨ka, _, v, ha, -, -, rfl⟩ := aluWrite_inv h
  exact .writes v (hw ka ha)

theorem effect_of_jumpTo {a : Operand} (h : jumpTo a s = .ok u) : Effect s i u := by
  obtain ⟨k, -, rfl⟩ := jumpTo_inv h
  exact .branches (.inl (s.reg k).isLt)

theorem effect_of_branchIf {taken : Bool} {a : Operand} (h : branchIf taken a s = .ok u) : Effect s i u := by
  obtain ⟨-, k, -, rfl⟩ | ⟨-, rfl⟩ := branchIf_inv h
  · exact .branches (.inl (s.reg k).isLt)
  · exact .branches (.inr rfl)

theorem effect_of_popBody {a : Operand} (h : popBody a s = .ok u) : Effect s (.pop a) u := by
  obtain ⟨k, rfl, -, ⟨-, rfl⟩ | ⟨rfl, -, rfl⟩⟩ := popBody_inv h
  · exact .pops k _ _
  · exact .writes _ (.inr rfl)

theorem effect_of_effectOf (h : effectOf i s = .ok u) : Effect s i u := by
  cases i with
  | hlt =>
    cases h
    exact .halts
  | ret =>
    obtain ⟨-, rfl⟩ := retBody_inv h
    exact .returns _ _
  | push a =>
    obtain ⟨_, -, hsp, rfl⟩ := pushBody_inv h
    exact .pushes a _ hsp
  | pop a => exact effect_of_popBody h
  | prn a =>
    obtain ⟨k, rfl, rfl⟩ := prnBody_inv h
    exact .prints k
  | call a =>
    obtain ⟨_, -, hsp, -, rfl⟩ := callBody_inv h
    exact .calls a _ _ hsp
  | jmp a => exact effect_of_jumpTo h
  | jeq a => exact effect_of_branchIf h
  | jne a => exact effect_of_branchIf h
  | ldi a v =>
    obtain ⟨_, v, ha, -, rfl⟩ := ldiBody_inv h
    exact .writes v ha
  | cmp a b =>
    obtain ⟨_, _, -, -, rfl⟩ := aluCompare_inv h
    exact .compares a b _
  | add a b => exact effect_of_aluWrite addResult (fun _ => id) h
  | mul a b => exact effect_of_aluWrite mulResult (fun _ => id) h
  | mod a b => exact effect_of_aluWrite modResult (fun _ => id) h
  | or a b => exact effect_of_aluWrite orResult (fun _ => id) h
  | shl a b => exact effect_of_aluWrite shlResult (fun _ => id) h
  | shr a b => exact effect_of_aluWrite shrResult (fun _ => id) h

/-- An instruction that answers a next state has stopped, or has had its effect with or without the default advance. -/
theorem exec_inv (h : exec i s = .next t) :
    (∃ c, t = s.takeFatal c (some i.opcode)) ∨
      ∃ u, Effect s i u ∧ (t = u ∨ t = u.setPc (s.pc + instructionSize i.opcode)) := by
  rw [exec_eq_complete] at h
  obtain ⟨c, -, rfl⟩ | ⟨u, hu, rfl⟩ := complete_inv h
  · exact .inl ⟨c, rfl⟩
  · refine .inr ⟨u, effect_of_effectOf hu, ?_⟩
    split
    · exact .inl rfl
    · exact .inr rfl

/-! ### Registers and memory -/

theorem Effect.reg_eq (h : Effect s i u) {k : Fin 8} (hk : ¬ writesReg i k) : u.reg k = s.reg k := by
  cases h with
  | halts | compares | prints | branches => rfl
  | writes v hw =>
    refine State.reg_setReg_other s ?_ v
    rintro rfl
    exact hk hw
  | pushes | calls | returns => exact State.reg_setReg_other s hk _
  | pops j v sp =>
    obtain ⟨hj, hsp⟩ := not_or.1 hk
    have hkj : k ≠ j := fun heq => hj (congrArg regOperand heq.symm)
    calc ((s.setReg j v).setSp sp).reg k = (s.setReg j v).reg k := State.reg_setReg_other _ hsp _
      _ = s.reg k := State.reg_setReg_other s hkj _

/-- Settles O46: the effect writes only destinations, and neither the default advance nor a stop writes a register. -/
theorem registerFrameOfEveryInstruction : Obligations.RegisterFrameOfEveryInstruction := by
  intro i s t k h hk
  obtain ⟨c, rfl⟩ | ⟨u, hu, rfl | rfl⟩ := exec_inv h
  · rfl
  · exact hu.reg_eq hk
  · exact hu.reg_eq hk

/-- The cell of an instruction that stores is at the decremented SP (R52). -/
theorem read_store_other {addr : Nat} (v : Byte) (hsp : s.sp ≠ 0)
    (haddr : (if s.sp = 0 then none else some (s.sp - 1).toNat) ≠ some addr) :
    (s.mem.write (s.sp - 1).toNat v).read addr = s.mem.read addr := by
  rw [if_neg hsp] at haddr
  exact Memory.read_write_other _ (fun heq => haddr (congrArg some heq.symm)) v

theorem Effect.read_eq (h : Effect s i u) {addr : Nat} (haddr : storedAddress i s ≠ some addr) :
    u.mem.read addr = s.mem.read addr := by
  cases h with
  | halts | writes | compares | prints | pops | returns | branches => rfl
  | pushes _ v hsp => exact read_store_other v hsp haddr
  | calls _ v _ hsp => exact read_store_other v hsp haddr

/-- Settles O47: only the effects of PUSH and CALL write memory, one byte at the stored address. -/
theorem memoryFrameOfEveryInstruction : Obligations.MemoryFrameOfEveryInstruction := by
  intro i s t addr h haddr
  obtain ⟨c, rfl⟩ | ⟨u, hu, rfl | rfl⟩ := exec_inv h
  · rfl
  · exact hu.read_eq haddr
  · exact hu.read_eq haddr

/-! ### FL, the output and the rest -/

/-- What an effect never writes, and what only one instruction's effect writes. -/
theorem Effect.system_frame (h : Effect s i u) :
    ((∀ a b, i ≠ .cmp a b) → u.fl = s.fl) ∧ ((∀ a, i ≠ .prn a) → u.output = s.output) ∧
      u.ir = s.ir ∧ u.latchA = s.latchA ∧ u.latchB = s.latchB ∧ u.haltRequest = s.haltRequest ∧
      u.params = s.params ∧ u.fault = s.fault := by
  cases h <;> simp

/-- Only HLT's effect writes the run state, and it halts. -/
theorem Effect.run_eq (h : Effect s i u) : u.run = s.run ∨ i = .hlt ∧ u.run = .halted := by
  cases h with
  | halts => exact .inr ⟨rfl, rfl⟩
  | writes | compares | prints | pushes | pops | calls | returns | branches => exact .inl rfl

/-- A stop fills the record with a cause, so the record it leaves is not an empty one. -/
theorem takeFatal_fault_ne {c : Condition} {op : Option Byte} (h : s.fault.cause = .noCondition) :
    (s.takeFatal c op).fault ≠ s.fault :=
  fun heq => c.cause_ne ((congrArg FaultRecord.cause heq).trans h)

/-- Settles O48: a stop writes the run state and the record alone, with the opcode of the instruction; an effect obeys
`Effect.system_frame` and `Effect.run_eq`. -/
theorem systemFrameOfEveryInstruction : Obligations.SystemFrameOfEveryInstruction := by
  intro i s t h
  obtain ⟨c, rfl⟩ | ⟨u, hu, ht⟩ := exec_inv h
  · exact ⟨fun _ => rfl, fun _ => rfl, rfl, rfl, rfl, rfl, rfl, .inr ⟨c.cause, c.info, c.cause_ne, takeFatal_eq _ _ _⟩,
      fun _ => .inr rfl, fun hfault hempty => absurd hfault (takeFatal_fault_ne hempty)⟩
  · obtain ⟨hfl, hout, hir, hla, hlb, hreq, hparams, hfault⟩ := hu.system_frame
    have hrun : u.run = s.run ∨ u.run = .halted := hu.run_eq.imp_right And.right
    have hhlt : i ≠ .hlt → u.run = s.run := fun hne => hu.run_eq.resolve_right fun hh => hne hh.1
    obtain rfl | rfl := ht <;>
      exact ⟨hfl, hout, hir, hla, hlb, hreq, hparams, .inl hfault, fun _ => hrun, fun _ _ => hhlt⟩

/-- Settles O49: it is the clause on the fault record of the system frame. -/
theorem fatalConditionIsPrecise : Obligations.FatalConditionIsPrecise := by
  intro i s t h hne
  obtain ⟨-, -, -, -, -, -, -, hfault, -⟩ := systemFrameOfEveryInstruction i s t h
  exact hfault.resolve_left hne

end Sys2Proof.Proofs.Frames
end

section
/-! PROOFS of the cycle: the fetch at the top of memory, the unknown opcodes, the trace tap and the halted core
(40_cycle.md). -/

namespace Sys2Proof.Proofs.Cycle
open Sys2Proof.Machine
open Sys2Proof.Proofs.Encoding (decodeBytes_cons_ok_iff decode_unknown)
open Sys2Proof.Proofs.OpcodeFetch (fetch_of_operandA_error fetch_of_operandB_error fetch_of_operands_ok)

variable {s t : State}

/-! ### The fetch where its three bytes do not all have an address (R104, R105) -/

section FetchAtTheTop

/-- At 254 the address of operand b is the first that does not exist. -/
theorem operands_at_254 (h : s.pc = 254) :
    s.pc < memSize ∧ fetchOperand s (s.pc + 1) = .ok (.byte (s.mem.read 255)) := by
  have hA : fetchOperand s 255 = .ok (.byte (s.mem.read 255)) := fetchOperand_below (by decide)
  simpa [h, memSize] using hA

theorem fetch_lenient_at_254 (h : s.pc = 254) (hl : s.params.strictOperandFetch = false) :
    fetch s = .ready (((s.setIr (s.mem.read 254)).setLatchA (.byte (s.mem.read 255))).setLatchB .missing) := by
  obtain ⟨hpc, hA⟩ := operands_at_254 h
  have hB : fetchOperand s (s.pc + 2) = .ok .missing := fetchOperand_lenient (by simp [h, memSize]) hl
  rw [fetch_of_operands_ok hpc hA hB, h]

theorem fetch_strict_at_254 (h : s.pc = 254) (hs : s.params.strictOperandFetch = true) :
    fetch s = .raised ((s.setIr (s.mem.read 254)).setLatchA (.byte (s.mem.read 255)))
      (.addressOutOfRange 256) (some (s.mem.read 254)) := by
  obtain ⟨hpc, hA⟩ := operands_at_254 h
  rw [fetch_of_operandB_error hpc hA (fetchOperand_strict (by simp [h, memSize]) hs), h]

theorem fetch_lenient_at_255 (h : s.pc = 255) (hl : s.params.strictOperandFetch = false) :
    fetch s = .ready (((s.setIr (s.mem.read 255)).setLatchA .missing).setLatchB .missing) := by
  have hA : fetchOperand s (s.pc + 1) = .ok .missing := fetchOperand_lenient (by simp [h, memSize]) hl
  have hB : fetchOperand s (s.pc + 2) = .ok .missing := fetchOperand_lenient (by simp [h, memSize]) hl
  rw [fetch_of_operands_ok (by simp [h, memSize]) hA hB, h]

theorem fetch_strict_at_255 (h : s.pc = 255) (hs : s.params.strictOperandFetch = true) :
    fetch s = .raised (s.setIr (s.mem.read 255)) (.addressOutOfRange 256) (some (s.mem.read 255)) := by
  rw [fetch_of_operandA_error (by simp [h, memSize]) (fetchOperand_strict (by simp [h, memSize]) hs), h]

/-- Above 255 every fetch raises, and above 253 every strict one. -/
theorem fetch_raises (h : 255 < s.pc ∨ (s.params.strictOperandFetch = true ∧ 253 < s.pc)) :
    ∃ t c op, fetch s = .raised t c op := by
  obtain habove | ⟨hs, hpc⟩ := h
  · exact ⟨_, _, _, fetch_above habove⟩
  · obtain h254 | h255 | habove : s.pc = 254 ∨ s.pc = 255 ∨ memSize ≤ s.pc := by unfold memSize; omega
    · exact ⟨_, _, _, fetch_strict_at_254 h254 hs⟩
    · exact ⟨_, _, _, fetch_strict_at_255 h255 hs⟩
    · exact ⟨_, _, _, fetch_above habove⟩

end FetchAtTheTop

/-! ### The step runs what was fetched -/

theorem step_of_decode_ok {i : Instr} (hs : s.fetches) (hf : fetch s = .ready t)
    (hd : decode t.ir t.latchA t.latchB = .ok i) : step s = exec i t := by
  simp [step_of_fetch_ready hs hf, runFetched, hd]

/-- Settles O11: below 254 the fetch completes with the three bytes that `decodeBytes` is given. -/
theorem stepRunsTheDecodedInstruction : Obligations.StepRunsTheDecodedInstruction := by
  intro s i hs hpc hd
  exact step_of_decode_ok hs (fetch_below (Nat.lt_succ_of_le hpc)) (decodeBytes_cons_ok_iff.1 hd)

/-- Settles O12: the latches of the lenient fetch are the operands of a byte list that ends at 255. -/
theorem lenientFetchRunsAtTheTop : Obligations.LenientFetchRunsAtTheTop := by
  intro s i hs hl
  exact ⟨fun h hd => step_of_decode_ok hs (fetch_lenient_at_254 h hl) (decodeBytes_cons_ok_iff.1 hd),
    fun h hd => step_of_decode_ok hs (fetch_lenient_at_255 h hl) (decodeBytes_cons_ok_iff.1 hd)⟩

/-- Settles O13: the strict fetch raises for the first missing address, whatever the opcode byte is. -/
theorem strictFetchFaultsAtTheTop : Obligations.StrictFetchFaultsAtTheTop := by
  intro s hs hstrict
  exact ⟨fun h => step_of_fetch_raised hs (fetch_strict_at_254 h hstrict),
    fun h => step_of_fetch_raised hs (fetch_strict_at_255 h hstrict)⟩

/-! ### Halted, and the halt request -/

/-- Settles O15, by induction on the number of steps. -/
theorem haltedCoreKeepsItsState : Obligations.HaltedCoreKeepsItsState := by
  intro n s h
  have hstep : core.step s = .next s := step_of_halted h
  induction n with
  | zero => rfl
  | succ n ih => simp only [Host.Core.run, hstep, ih]

/-- Settles O16: the request is looked at before the fetch. -/
theorem haltRequestStopsBeforeTheFetch : Obligations.HaltRequestStopsBeforeTheFetch := by
  intro s hrun
  have hrun' : s.requestHalt.run = .running := hrun
  have hreq : s.requestHalt.haltRequest = true := rfl
  simp only [step, cycle, hrun', hreq, if_true]
  rfl

/-! ### Unknown opcodes -/

section Unknown
variable {op : Byte}

theorem execUnknown_alu (h : isAlu op = true) :
    execUnknown (classifyUnknown op) t = .next (t.takeFatal .unsupportedOperation (some op)) := by
  simp only [classifyUnknown, h, if_true]
  rfl

theorem execUnknown_branching (h : isAlu op = false) (hp : setsPc op = true) :
    execUnknown (classifyUnknown op) t = .next (t.setPc (t.pc + instructionSize op)) := by
  simp [classifyUnknown, h, hp, execUnknown, unknownByte, unknownBody, complete_ok]

theorem execUnknown_plain_skip (h : isAlu op = false) (hp : setsPc op = false)
    (hpol : t.params.unknownOpcodePolicy = .skip) :
    execUnknown (classifyUnknown op) t = .next (t.setPc (t.pc + instructionSize op)) := by
  simp [classifyUnknown, h, hp, execUnknown, unknownByte, unknownBody, hpol, complete_ok]

theorem execUnknown_plain_fault (h : isAlu op = false) (hp : setsPc op = false)
    (hpol : t.params.unknownOpcodePolicy = .fault) :
    execUnknown (classifyUnknown op) t = .next (t.takeFatal .unsupportedOperation (some op)) := by
  simp [classifyUnknown, h, hp, execUnknown, unknownByte, unknownBody, hpol, complete_error]

/-- An unknown opcode stops with UnsupportedOperation or only advances PC (R118 to R120). -/
theorem execUnknown_cases (op : Byte) (t : State) :
    execUnknown (classifyUnknown op) t = .next (t.takeFatal .unsupportedOperation (some op)) ∨
      execUnknown (classifyUnknown op) t = .next (t.setPc (t.pc + instructionSize op)) := by
  cases h : isAlu op with
  | true => exact .inl (execUnknown_alu h)
  | false =>
    cases hp : setsPc op with
    | true => exact .inr (execUnknown_branching h hp)
    | false =>
      cases hpol : t.params.unknownOpcodePolicy with
      | skip => exact .inr (execUnknown_plain_skip h hp hpol)
      | fault => exact .inl (execUnknown_plain_fault h hp hpol)

/-- A completed fetch has loaded IR with the byte at PC, and the latches; nothing else differs. -/
theorem fetch_ready_eq (hf : fetch s = .ready t) :
    t.ir = s.mem.read s.pc ∧ t = { s with ir := t.ir, latchA := t.latchA, latchB := t.latchB } := by
  obtain ⟨-, _, _, -, -, rfl⟩ := fetch_ready_inv hf
  exact ⟨rfl, rfl⟩

theorem step_of_unknown (hs : s.fetches) (hf : fetch s = .ready t) (hop : s.mem.read s.pc ∉ knownOpcodes) :
    step s = execUnknown (classifyUnknown (s.mem.read s.pc))
      { s with ir := t.ir, latchA := t.latchA, latchB := t.latchB } := by
  obtain ⟨hir, ht⟩ := fetch_ready_eq hf
  rw [step_of_fetch_ready hs hf, runFetched, hir, decode_unknown hop, ← hir, ← ht]

end Unknown

/-- Settles O17: the class of a byte with bit 5 set is `alu`, which raises. -/
theorem unknownAluOpcodeRaises : Obligations.UnknownAluOpcodeRaises := by
  intro s t hs hf hop halu
  rw [step_of_unknown hs hf hop, execUnknown_alu halu]
  rfl

/-- Settles O18: the class is `branching`, which sets PC past the instruction. -/
theorem unknownBranchingOpcodeSkips : Obligations.UnknownBranchingOpcodeSkips := by
  intro s t hs hf hop halu hpc
  rw [step_of_unknown hs hf hop, execUnknown_branching halu hpc]
  rfl

/-- Settles O19: the class is `nonBranching`, which looks at the parameter. -/
theorem unknownPlainOpcodeFollowsPolicy : Obligations.UnknownPlainOpcodeFollowsPolicy := by
  intro s t hs hf hop halu hpc
  rw [step_of_unknown hs hf hop]
  refine ⟨fun hpol => ?_, fun hpol => ?_⟩
  · rw [execUnknown_plain_skip halu hpc]
    · rfl
    · exact hpol
  · rw [execUnknown_plain_fault halu hpc]
    · rfl
    · exact hpol

/-! ### The trace tap -/

theorem traceTap_of_fetch_ready (hs : s.fetches) (hf : fetch s = .ready t) :
    s.traceTap = some { pc := t.pc, opcode := t.ir, operandA := t.latchA, operandB := t.latchB, regs := t.regs } := by
  obtain ⟨hrun, hreq⟩ := hs
  simp [State.traceTap, hrun, hreq, hf]

theorem traceTap_of_fetch_raised {c : Condition} {op : Option Byte} (hs : s.fetches) (hf : fetch s = .raised t c op) :
    s.traceTap = none := by
  obtain ⟨hrun, hreq⟩ := hs
  simp [State.traceTap, hrun, hreq, hf]

theorem traceTap_of_not_fetches (h : s.run = .halted ∨ s.haltRequest = true) : s.traceTap = none := by
  cases hrun : s.run with
  | halted => simp [State.traceTap, hrun]
  | running => simp [State.traceTap, hrun, h.resolve_left (by simp [hrun])]

/-- Settles O20: the tap shows what the fetch loaded, so each clause is what the fetch does there. -/
theorem traceTapShowsTheFetchedCycle : Obligations.TraceTapShowsTheFetchedCycle := by
  refine ⟨fun s hs hpc => traceTap_of_fetch_ready hs (fetch_below (Nat.lt_succ_of_le hpc)),
    fun s hs hl => ⟨fun h => ?_, fun h => ?_⟩, fun s hs h => ?_, fun s => traceTap_of_not_fetches⟩
  · simp [traceTap_of_fetch_ready hs (fetch_lenient_at_254 h hl), h]
  · simp [traceTap_of_fetch_ready hs (fetch_lenient_at_255 h hl), h]
  · obtain ⟨t, c, op, hf⟩ := fetch_raises h
    exact traceTap_of_fetch_raised hs hf

end Sys2Proof.Proofs.Cycle
end

section
/-! PROOFS about every step: what it can answer, the whole-machine rules, and the halting ways. -/

namespace Sys2Proof.Proofs.EveryStep
open Sys2Proof.Machine
open Sys2Proof.Proofs.Frames Sys2Proof.Proofs.Cycle
open Sys2Proof.Proofs.OpcodeFetch (step_of_pc_above)

/-- The states a step can answer. Where a cycle fetches, IR and the latches are loaded; then it stops, passes an unknown
opcode by, or executes. -/
inductive StepTo (s : State) : State → Prop
  | idles (hrun : s.run = .halted) : StepTo s s
  | haltsByRequest (hrun : s.run = .running) (hreq : s.haltRequest = true) : StepTo s (s.setRun .halted)
  | stops {ir : Byte} {a b : Operand} {c : Condition} {op : Option Byte} (hs : s.fetches)
      (hir : s.pc < memSize → ir = s.mem.read s.pc) :
      StepTo s (State.takeFatal { s with ir := ir, latchA := a, latchB := b } c op)
  | passes {ir : Byte} {a b : Operand} {op : Byte} (hs : s.fetches) (hpc : s.pc < memSize)
      (hir : ir = s.mem.read s.pc) :
      StepTo s (State.setPc { s with ir := ir, latchA := a, latchB := b } (s.pc + instructionSize op))
  | executes {ir : Byte} {a b : Operand} {i : Instr} {t : State} (hs : s.fetches) (hpc : s.pc < memSize)
      (hir : ir = s.mem.read s.pc) (ha : fetchOperand s (s.pc + 1) = .ok a) (hd : decode ir a b = .ok i)
      (he : exec i { s with ir := ir, latchA := a, latchB := b } = .next t) : StepTo s t

variable {s t : State}

/-- A fetch that raises from an existing PC has loaded IR with the byte there. -/
theorem fetch_raised_eq {c : Condition} {op : Option Byte} (h : fetch s = .raised t c op) :
    ∃ ir a, t = { s with ir := ir, latchA := a } ∧ (s.pc < memSize → ir = s.mem.read s.pc) := by
  obtain ⟨ir, a, rfl⟩ := fetch_raised_inv h
  refine ⟨ir, a, rfl, fun hpc => ?_⟩
  obtain ⟨t, hready | ⟨_, _, hraised⟩, hir⟩ := OpcodeFetch.fetch_loads_ir hpc
  · rw [h] at hready
    cases hready
  · rw [h] at hraised
    cases hraised
    exact hir

theorem step_inv (h : step s = .next t) : StepTo s t := by
  obtain ⟨hrun, he⟩ | ⟨hrun, hreq, he⟩ | ⟨hrun, hreq, ⟨f, c, op, hf, he⟩ | ⟨f, hf, hexec⟩⟩ := step_cases s
  · cases he.symm.trans h
    exact .idles hrun
  · cases he.symm.trans h
    exact .haltsByRequest hrun hreq
  · cases he.symm.trans h
    obtain ⟨ir, a, rfl, hir⟩ := fetch_raised_eq hf
    exact .stops ⟨hrun, hreq⟩ hir
  · obtain ⟨hpc, a, b, ha, -, rfl⟩ := fetch_ready_inv hf
    obtain ⟨i, hd, he⟩ | ⟨u, hd, he⟩ := hexec
    · exact .executes ⟨hrun, hreq⟩ hpc rfl ha hd (he.symm.trans h)
    · rw [decode_error_inv hd] at he
      obtain hstop | hpass := execUnknown_cases (s.mem.read s.pc)
        (((s.setIr (s.mem.read s.pc)).setLatchA a).setLatchB b)
      · cases hstop.symm.trans (he.symm.trans h)
        exact .stops ⟨hrun, hreq⟩ fun _ => rfl
      · cases hpass.symm.trans (he.symm.trans h)
        exact .passes ⟨hrun, hreq⟩ hpc rfl

theorem exec_answers (i : Instr) (s : State) : ∃ t, exec i s = .next t := by
  rw [exec_eq_complete]
  exact complete_answers _ _ _

/-- Settles O54: each way of `step_cases` answers a next state. -/
theorem everyStepAnswersNext : Obligations.EveryStepAnswersNext := by
  intro s
  obtain ⟨-, he⟩ | ⟨-, -, he⟩ | ⟨-, -, ⟨f, c, op, -, he⟩ | ⟨f, -, ⟨i, -, he⟩ | ⟨u, -, he⟩⟩⟩ := step_cases s
  · exact ⟨_, he⟩
  · exact ⟨_, he⟩
  · exact ⟨_, he⟩
  · rw [he]
    exact exec_answers i f
  · rw [he]
    exact complete_answers _ _ _

/-- Settles O14: every way of `StepTo` that fetches has the byte at PC in IR, and no instruction writes IR. -/
theorem opcodeFetchReadsIrOrFaults : Obligations.OpcodeFetchReadsIrOrFaults := by
  refine ⟨fun s hs hpc => ?_, fun s hs hpc => step_of_pc_above hs hpc⟩
  obtain ⟨t, ht⟩ := everyStepAnswersNext s
  refine ⟨t, ht, ?_⟩
  cases step_inv ht with
  | idles hrun => cases hs.1.symm.trans hrun
  | haltsByRequest _ hreq => cases hs.2.symm.trans hreq
  | stops _ hir => exact hir (Nat.lt_succ_of_le hpc)
  | passes _ _ hir => exact hir
  | executes _ _ hir _ _ he =>
    obtain ⟨-, -, hkeep, -⟩ := systemFrameOfEveryInstruction _ _ _ he
    exact hkeep.trans hir

/-! ### Whole-machine rules: the frame of the decoded instruction, and its opcode byte at PC -/

/-- The instruction decoded from the byte at PC has that opcode. -/
theorem read_pc_eq_opcode {ir : Byte} {a b : Operand} {i : Instr} (hir : ir = s.mem.read s.pc)
    (hd : decode ir a b = .ok i) : s.mem.read s.pc = i.opcode :=
  hir.symm.trans (decode_inv hd).1

/-- Settles O50, by the system frame of the executed instruction. -/
theorem onlyCmpChangesFlags : Obligations.OnlyCmpChangesFlags := by
  intro s t h hne
  cases step_inv h with
  | idles | haltsByRequest | stops | passes => exact absurd rfl hne
  | @executes _ _ _ i _ hs _ hir _ hd he =>
    obtain ⟨hfl, -⟩ := systemFrameOfEveryInstruction _ _ _ he
    have hcmp : ∃ a b, i = .cmp a b := by
      by_contra hno
      exact hne (hfl fun a b heq => hno ⟨a, b, heq⟩)
    obtain ⟨_, _, rfl⟩ := hcmp
    exact ⟨hs.1, read_pc_eq_opcode hir hd⟩

/-- PRN stops, or appends the register its operand names. -/
theorem exec_prn_output {a : Operand} (h : exec (.prn a) s = .next t) :
    t.output = s.output ∨ ∃ k, a = regOperand k ∧ t.output = s.output ++ [s.reg k] := by
  obtain ⟨c, rfl⟩ | ⟨u, hu, ht⟩ := exec_inv h
  · exact .inl rfl
  · have houtput : t.output = u.output := by obtain rfl | rfl := ht <;> rfl
    cases hu with
    | writes | branches => exact .inl houtput
    | prints k => exact .inr ⟨k, rfl, houtput⟩

/-- A latch that holds a byte holds the one at its address. -/
theorem fetchOperand_byte_inv {addr : Nat} {v : Byte} (h : fetchOperand s addr = .ok (.byte v)) :
    s.mem.read addr = v := by
  cases hr : memRead s addr with
  | ok w =>
    simp only [fetchOperand, hr] at h
    cases h
    exact (memRead_inv hr).2.symm
  | error c =>
    simp only [fetchOperand, hr] at h
    split at h <;> cases h

/-- Settles O51: beside PRN the output is framed, and PRN's operand is the byte at PC + 1. -/
theorem onlyPrnAppendsOutput : Obligations.OnlyPrnAppendsOutput := by
  intro s t h
  cases step_inv h with
  | idles | haltsByRequest | stops | passes => exact .inl rfl
  | @executes _ a _ i _ hs _ hir ha hd he =>
    by_cases hprn : ∃ o, i = .prn o
    · obtain ⟨o, rfl⟩ := hprn
      obtain hsame | ⟨k, rfl, happend⟩ := exec_prn_output he
      · exact .inl hsame
      · obtain ⟨-, hoperands⟩ := decode_inv hd
        have hak : a = regOperand k := (List.head_eq_of_cons_eq hoperands).symm
        exact .inr ⟨hs.1, read_pc_eq_opcode hir hd, k, fetchOperand_byte_inv (ha.trans (congrArg _ hak)), happend⟩
    · obtain ⟨-, hout, -⟩ := systemFrameOfEveryInstruction _ _ _ he
      exact .inl (hout fun o heq => hprn ⟨o, heq⟩)

/-- Only PUSH and CALL store, at the decremented SP. -/
theorem storedAddress_eq_some {i : Instr} {addr : Nat} (h : storedAddress i s = some addr) :
    (i.opcode = 0x45 ∨ i.opcode = 0x50) ∧ s.sp ≠ 0 ∧ addr = s.sp.toNat - 1 := by
  have of_if (hst : (if s.sp = 0 then none else some (s.sp - 1).toNat) = some addr) :
      s.sp ≠ 0 ∧ addr = s.sp.toNat - 1 := by
    by_cases hsp : s.sp = 0
    · simp [hsp] at hst
    · rw [if_neg hsp, (sp_sub_one hsp).1] at hst
      exact ⟨hsp, (Option.some.inj hst).symm⟩
  cases i with
  | push a => exact ⟨.inl rfl, of_if h⟩
  | call a => exact ⟨.inr rfl, of_if h⟩
  | hlt | ret | pop | prn | jmp | jeq | jne | ldi | add | mul | mod | cmp | or | shl | shr => cases h

/-- Settles O52, by the memory frame of the executed instruction. -/
theorem onlyPushAndCallChangeMemory : Obligations.OnlyPushAndCallChangeMemory := by
  intro s t addr h hne
  cases step_inv h with
  | idles | haltsByRequest | stops | passes => exact absurd rfl hne
  | executes _ _ hir _ hd he =>
    have hstored := not_imp_comm.1 (memoryFrameOfEveryInstruction _ _ _ addr he) hne
    rw [read_pc_eq_opcode hir hd]
    exact storedAddress_eq_some hstored

/-- Settles O58: beside a halt request a running core halts by a stop, which fills the record, or by an instruction that
writes the run state from an empty record, which is HLT. -/
theorem onlyThreeWaysToHalt : Obligations.OnlyThreeWaysToHalt := by
  intro s t hempty h
  cases step_inv h with
  | idles hrun => exact ⟨id, fun hrunning => by cases hrunning.symm.trans hrun⟩
  | haltsByRequest hrun hreq => exact ⟨fun _ => hrun, fun _ _ => .inl hreq⟩
  | @stops _ _ _ c _ hs _ => exact ⟨fun _ => hs.1, fun _ _ => .inr (.inr c.cause_ne)⟩
  | passes hs _ _ => exact ⟨fun _ => hs.1, fun hrunning hhalted => by cases hrunning.symm.trans hhalted⟩
  | @executes _ _ _ i _ hs _ hir _ hd he =>
    refine ⟨fun _ => hs.1, fun hrunning hhalted => .inr ?_⟩
    obtain ⟨-, -, -, -, -, -, -, hfault, -, hrun⟩ := systemFrameOfEveryInstruction _ _ _ he
    obtain hsame | ⟨cause, info, hcause, rfl⟩ := hfault
    · have hhlt : i = .hlt := by
        by_contra hne
        cases (hrunning.symm.trans (hrun hsame hempty hne).symm).trans hhalted
      exact .inl (by rw [read_pc_eq_opcode hir hd, hhlt]; rfl)
    · exact .inr hcause

/-- Settles O59: the only part of a cycle that could write them is the instruction, whose frame holds both. -/
theorem parametersAndInputNeverWritten : Obligations.ParametersAndInputNeverWritten := by
  intro s t h
  cases step_inv h with
  | idles | haltsByRequest | stops | passes => exact ⟨rfl, rfl⟩
  | executes _ _ _ _ _ he =>
    obtain ⟨-, -, -, -, -, hreq, hparams, -⟩ := systemFrameOfEveryInstruction _ _ _ he
    exact ⟨hparams, hreq⟩

end Sys2Proof.Proofs.EveryStep
end

section
/-! PROOFS of the invariant: it holds at reset and every step keeps it. -/

namespace Sys2Proof.Proofs.Invariant
open Sys2Proof.Machine
open Sys2Proof.Proofs.Frames Sys2Proof.Proofs.Cycle Sys2Proof.Proofs.EveryStep

variable {s t u : State} {i : Instr}

/-! ### Memory and PC -/

theorem effect_mem_wf (h : Effect s i u) (hwf : s.mem.wf = true) : u.mem.wf = true := by
  cases h with
  | halts | writes | compares | prints | pops | returns | branches => exact hwf
  | pushes _ v hsp => exact Memory.wf_write v hwf (sp_sub_one hsp).2
  | calls _ v _ hsp => exact Memory.wf_write v hwf (sp_sub_one hsp).2

/-- An effect leaves PC, or sets it to a byte or past a one-operand instruction. -/
theorem effect_pc_le (h : Effect s i u) (hpc : s.pc < memSize) : u.pc ≤ 259 := by
  unfold memSize at hpc
  cases h with
  | halts | writes | compares | prints | pushes | pops => exact Nat.le_trans (Nat.le_of_lt hpc) (by decide)
  | calls _ _ target | returns target => exact Nat.le_trans (Nat.le_of_lt target.isLt) (by decide)
  | branches htarget =>
    rw [State.setPc_pc]
    unfold memSize at htarget
    omega

/-- The default advance from an existing address ends at most at 259. -/
theorem advance_le (op : Byte) (hpc : s.pc < memSize) : s.pc + instructionSize op ≤ 259 := by
  have := instructionSize_le op
  unfold memSize at hpc
  omega

/-! ### The parts of a cycle -/

/-- A running core that meets the invariant has an empty fault record. -/
theorem fault_eq_empty (hinv : s.Inv) (hrun : s.run = .running) : s.fault = FaultRecord.empty := by
  obtain ⟨-, -, hempty | ⟨hhalted, -⟩⟩ := hinv
  · exact hempty
  · cases hrun.symm.trans hhalted

/-- Taking a condition gives the faulted stop that the record describes. -/
theorem takeFatal_inv {c : Condition} {op : Option Byte} (hinv : s.Inv) : (s.takeFatal c op).Inv := by
  obtain ⟨hwf, hpc, -⟩ := hinv
  exact ⟨hwf, hpc, .inr ⟨rfl, c.cause_ne, rfl⟩⟩

theorem exec_keeps_inv (hinv : s.Inv) (hrun : s.run = .running) (hpc : s.pc < memSize) (h : exec i s = .next t) :
    t.Inv := by
  obtain ⟨c, rfl⟩ | ⟨u, hu, ht⟩ := exec_inv h
  · exact takeFatal_inv hinv
  · obtain ⟨-, -, -, -, -, -, -, hfault⟩ := hu.system_frame
    have hempty : u.fault = FaultRecord.empty := hfault.trans (fault_eq_empty hinv hrun)
    obtain ⟨hwf, -, -⟩ := hinv
    have hmem : u.mem.wf = true := effect_mem_wf hu hwf
    obtain rfl | rfl := ht
    · exact ⟨hmem, effect_pc_le hu hpc, .inl hempty⟩
    · exact ⟨hmem, advance_le i.opcode hpc, .inl hempty⟩

/-- Settles O55, by cases on what a step can answer: IR and the latches are outside the invariant, a stop writes the
record it describes, and PC moves only from an address that exists. -/
theorem invariantKeptByEveryStep : Obligations.InvariantKeptByEveryStep := by
  intro s t hinv h
  cases step_inv h with
  | idles => exact hinv
  | haltsByRequest hrun =>
    have hempty := fault_eq_empty hinv hrun
    obtain ⟨hwf, hpc, -⟩ := hinv
    exact ⟨hwf, hpc, .inl hempty⟩
  | stops => exact takeFatal_inv hinv
  | @passes _ _ _ op hs hpc =>
    have hempty := fault_eq_empty hinv hs.1
    obtain ⟨hwf, -, -⟩ := hinv
    exact ⟨hwf, advance_le op hpc, .inl hempty⟩
  | executes hs hpc _ _ _ he =>
    refine exec_keeps_inv ?_ ?_ ?_ he
    exacts [hinv, hs.1, hpc]

/-- Settles O56: reset has an empty record, PC 0 and a memory in canonical form, listed from `mem0`. -/
theorem invariantHoldsAtReset : Obligations.InvariantHoldsAtReset :=
  ⟨⟨State.reset_mem_wf, Nat.zero_le _, .inl rfl⟩, fun c => ⟨State.resetWith_mem_wf c, Nat.zero_le _, .inl rfl⟩⟩

/-- Settles O57: under the invariant a filled record means Halted, and a halted core keeps its state. -/
theorem faultRecordWrittenOnce : Obligations.FaultRecordWrittenOnce := by
  intro n s t hinv hfilled h
  have hhalted : s.run = .halted := by
    cases hrun : s.run with
    | halted => rfl
    | running => exact absurd (congrArg FaultRecord.cause (fault_eq_empty hinv hrun)) hfilled
  cases (haltedCoreKeepsItsState n s hhalted).symm.trans h
  rfl

end Sys2Proof.Proofs.Invariant
end

section
/-! PROOFS of reset, the loader and the registers (10_state.md, 70_reset_and_hazards.md). -/

namespace Sys2Proof.Proofs.ResetAndLoad
open Sys2Proof.Machine
open Sys2Proof.Proofs.MemoryAccess (setMem_frame)

/-! ### Registers -/

/-- Settles O10, by the register laws: SP is register 7 by definition. -/
theorem stackPointerIsRegisterSeven : Obligations.StackPointerIsRegisterSeven :=
  fun s v k _ => ⟨s.reg_setReg_same spIndex v, s.sp_setSp v, rfl, s.reg_setReg_same k v,
    fun h => State.reg_setReg_other s h v⟩

/-! ### Reset -/

/-- A register below SP after reset is the parameter's. -/
theorem resetWith_reg (c : Config) (j : Fin 7) : (State.resetWith c).reg j.castSucc = c.resetRegs[j] := by
  simp [State.resetWith, State.reg]

theorem resetWith_sp (c : Config) : (State.resetWith c).sp = spInit := by
  simp [State.resetWith, State.sp, State.reg, spIndex]

/-- A cell after reset is the parameter's, whether it is listed or not. -/
theorem resetWith_read (c : Config) (j : Fin 256) : (State.resetWith c).mem.read j.val = c.mem0[j] := by
  have h := Memory.read_ofBytes 0 j.val c.mem0.toList
  simpa [State.resetWith] using h

/-- Settles O6: each part of the reset state is the parameter's or the constant's. -/
theorem resetLeavesTheSpecValues : Obligations.ResetLeavesTheSpecValues :=
  fun c => ⟨resetWith_sp c, rfl, rfl, rfl, rfl, resetWith_reg c, rfl, resetWith_read c, rfl⟩

/-- Bytes that an unlisted cell reads as list no cell. -/
theorem ofBytes_replicate_unlisted (n addr : Nat) :
    Memory.ofBytes addr (List.replicate n Memory.unlistedByte) = [] := by
  induction n generalizing addr with
  | zero => rfl
  | succ n ih => simp [List.replicate_succ, Memory.ofBytes, ih]

/-- The reset of parameters whose memory lists no cell differs from `State.reset` in the values it takes over only. -/
theorem resetWith_eq {c : Config} (hmem : Memory.ofBytes 0 c.mem0.toList = []) :
    State.resetWith c = { State.reset with regs := c.resetRegs.push spInit, fl := c.resetFL, params := c.params } := by
  rw [State.resetWith, hmem]
  rfl

/-- The named contents of memory, all zero, list no cell. -/
theorem ofBytes_default_mem0 : Memory.ofBytes 0 Config.default.mem0.toList = [] := by
  rw [Config.default, Vector.toList_replicate]
  exact ofBytes_replicate_unlisted 256 0

/-- Settles O7: `State.reset` holds the named parameters, and its memory is empty as theirs is. -/
theorem resetStateIsTheNamedReset : Obligations.ResetStateIsTheNamedReset :=
  ⟨rfl, rfl, rfl, rfl, rfl, (resetWith_eq ofBytes_default_mem0).trans rfl⟩

/-! ### The loader -/

/-- `m` is `m₀` with the bytes written from `addr` on. -/
structure HoldsFrom (addr : Nat) (bytes : List Byte) (m₀ m : Memory) : Prop where
  inside : ∀ j : Nat, ∀ h : j < bytes.length, m.read (addr + j) = bytes[j]
  outside : ∀ a : Nat, a < addr ∨ addr + bytes.length ≤ a → m.read a = m₀.read a

/-- One byte written, then the rest after it. -/
theorem HoldsFrom.cons {addr : Nat} {v : Byte} {rest : List Byte} {m₀ m : Memory}
    (h : HoldsFrom (addr + 1) rest (m₀.write addr v) m) : HoldsFrom addr (v :: rest) m₀ m where
  inside
    | 0, _ => by rw [Nat.add_zero, h.outside addr (.inl (Nat.lt_succ_self addr)), Memory.read_write_same]; rfl
    | j + 1, hj => by
      rw [show addr + (j + 1) = addr + 1 + j by omega]
      exact h.inside j (Nat.lt_of_succ_lt_succ hj)
  outside a ha := by
    rw [List.length_cons] at ha
    rw [h.outside a (by omega), Memory.read_write_other m₀ (by omega)]

theorem loadFrom_fits {addr : Nat} {bytes : List Byte} (s : State) (h : addr + bytes.length ≤ memSize) :
    ∃ m, loadFrom addr bytes s = .ok (s.setMem m) ∧ HoldsFrom addr bytes s.mem m := by
  induction bytes generalizing addr s with
  | nil => exact ⟨s.mem, rfl, fun j hj => absurd hj (Nat.not_lt_zero j), fun _ _ => rfl⟩
  | cons v rest ih =>
    rw [List.length_cons] at h
    obtain ⟨m, hload, hm⟩ := ih (s.setMem (s.mem.write addr v)) (addr := addr + 1) (by omega)
    refine ⟨m, ?_, hm.cons⟩
    rw [loadFrom, memWrite_ok v (by omega)]
    exact hload

/-- The byte that has no address stops the load, however many came before it. -/
theorem loadFrom_too_long {addr : Nat} {bytes : List Byte} (s : State) (haddr : addr ≤ memSize)
    (h : memSize < addr + bytes.length) : ∃ c, loadFrom addr bytes s = .error c := by
  induction bytes generalizing addr s with
  | nil => exact absurd haddr (Nat.not_le.2 h)
  | cons v rest ih =>
    rw [List.length_cons] at h
    obtain hlt | hge := Nat.lt_or_ge addr memSize
    · rw [loadFrom, memWrite_ok v hlt]
      exact ih _ hlt (by omega)
    · rw [loadFrom, memWrite_error v hge]
      exact ⟨_, rfl⟩

/-- Settles O8: the loader is a run of writes from address 0, by induction on the program. -/
theorem loaderWritesProgramFromZero : Obligations.LoaderWritesProgramFromZero := by
  refine ⟨fun s bytes h => ?_, fun s bytes h => ?_⟩
  · obtain ⟨m, hload, hm⟩ := loadFrom_fits (addr := 0) s (show 0 + bytes.length ≤ 256 by omega)
    refine ⟨s.setMem m, by rw [State.loadProgram, hload], fun j hj => ?_, fun a ha => hm.outside a (.inr (by omega)),
      setMem_frame s m⟩
    simpa using hm.inside j hj
  · obtain ⟨c, hload⟩ := loadFrom_too_long (addr := 0) s (Nat.zero_le _) (show 256 < 0 + bytes.length by omega)
    rw [State.loadProgram, hload]

end Sys2Proof.Proofs.ResetAndLoad
end

section
/-! PROOFS of noninterference: FL reaches an instruction only through E (R30). -/

namespace Sys2Proof.Proofs.FlagsNoninterference
open Sys2Proof.Machine
open Sys2Proof.Proofs.Frames (takeFatal_fault_ne)

/-! ### The parts of an instruction beside another FL -/

section Parts
variable (s : State) (f : FlagWord)

@[simp] theorem registerA_setFl (a : Operand) : registerA a (s.setFl f) = registerA a s := rfl
@[simp] theorem registerB_setFl (b : Operand) : registerB b (s.setFl f) = registerB b s := rfl
@[simp] theorem stackTop_setFl : stackTop (s.setFl f) = stackTop s := rfl
@[simp] theorem afterOneOperand_setFl : afterOneOperand (s.setFl f) = afterOneOperand s := rfl

theorem stackDown_setFl : stackDown (s.setFl f) = (stackDown s).map (·.setFl f) := by
  by_cases hsp : s.sp = 0
  · rw [stackDown_error hsp, stackDown_error (s := s.setFl f) hsp]
    rfl
  · rw [stackDown_ok hsp, stackDown_ok (s := s.setFl f) hsp]
    rfl

theorem memWrite_setFl (addr : Nat) (v : Byte) :
    memWrite (s.setFl f) addr v = (memWrite s addr v).map (·.setFl f) := by
  unfold memWrite
  split <;> rfl

end Parts

/-! ### Effects that do not read FL -/

/-- Beside another FL the effect is the same effect with that FL in it. -/
def IgnoresFl (body : State → Except Condition State) : Prop :=
  ∀ (s : State) (f : FlagWord), body (s.setFl f) = (body s).map (·.setFl f)

theorem aluWrite_ignoresFl (op : Byte → Byte → Except Condition Byte) (a b : Operand) :
    IgnoresFl (aluWrite op a b) := by
  intro s f
  simp only [aluWrite, registerA_setFl, registerB_setFl, State.reg_setFl]
  cases registerA a s with
  | error c => rfl
  | ok ka =>
    cases registerB b s with
    | error c => rfl
    | ok kb => cases h : op (s.reg ka) (s.reg kb) <;> simp only [h] <;> rfl

theorem pushBody_ignoresFl (a : Operand) : IgnoresFl (pushBody a) := by
  intro s f
  simp only [pushBody, registerA_setFl, stackDown_setFl]
  cases registerA a s with
  | error c => rfl
  | ok k =>
    cases stackDown s with
    | error c => rfl
    | ok t => exact memWrite_setFl t f _ _

theorem popBody_ignoresFl (a : Operand) : IgnoresFl (popBody a) := by
  intro s f
  simp only [popBody, registerA_setFl, stackTop_setFl, State.sp_setFl]
  cases registerA a s with
  | error c => rfl
  | ok k =>
    cases stackTop s with
    | error c => rfl
    | ok v => dsimp only; split_ifs <;> rfl

theorem callBody_ignoresFl (a : Operand) : IgnoresFl (callBody a) := by
  intro s f
  simp only [callBody, registerA_setFl, stackDown_setFl]
  cases registerA a s with
  | error c => rfl
  | ok k =>
    cases stackDown s with
    | error c => rfl
    | ok t =>
      by_cases hret : memSize ≤ afterOneOperand s
      · simp only [Except.map, afterOneOperand_setFl, hret, if_true]
      · simp only [Except.map, afterOneOperand_setFl, hret, if_false, State.sp_setFl, memWrite_setFl]
        cases memWrite t t.sp.toNat (BitVec.ofNat 8 (afterOneOperand s)) <;> rfl

theorem retBody_ignoresFl : IgnoresFl retBody := by
  intro s f
  simp only [retBody, stackTop_setFl]
  cases stackTop s <;> rfl

theorem jumpTo_ignoresFl (a : Operand) : IgnoresFl (jumpTo a) := by
  intro s f
  simp only [jumpTo, registerA_setFl]
  cases registerA a s <;> rfl

theorem branchIf_ignoresFl (taken : Bool) (a : Operand) : IgnoresFl (branchIf taken a) := by
  intro s f
  cases taken with
  | true => exact jumpTo_ignoresFl a s f
  | false => rfl

theorem prnBody_ignoresFl (a : Operand) : IgnoresFl (prnBody a) := by
  intro s f
  simp only [prnBody, registerA_setFl]
  cases registerA a s <;> rfl

theorem ldiBody_ignoresFl (a i : Operand) : IgnoresFl (ldiBody a i) := by
  intro s f
  cases a with
  | missing => rfl
  | byte index =>
    cases i with
    | missing => rfl
    | byte v =>
      simp only [ldiBody, consult]
      cases registerIndex index <;> rfl

/-- CMP's effect takes no part of FL: it writes all three bits. -/
theorem aluCompare_setFl (a b : Operand) (s : State) (f g : FlagWord) :
    aluCompare a b (s.setFl f) = aluCompare a b (s.setFl g) := by
  simp only [aluCompare, registerA_setFl, registerB_setFl]
  rfl

/-! ### Every instruction -/

/-- The same condition, or states that differ at most in FL. -/
def SameButFl (x y : Except Condition State) : Prop := x.map (·.setFl 0) = y.map (·.setFl 0)

variable {s t u : State} {f g : FlagWord}

theorem IgnoresFl.sameButFl {body : State → Except Condition State} (h : IgnoresFl body) :
    SameButFl (body (s.setFl f)) (body (s.setFl g)) := by
  unfold SameButFl
  rw [h s f, h s g]
  cases body s <;> rfl

/-- E is bit 0 of FL. -/
theorem equalFlag_setFl_congr (hfg : f[0] = g[0]) : (s.setFl f).equalFlag = (s.setFl g).equalFlag := by
  simpa [State.equalFlag] using hfg

theorem effectOf_sameButFl (i : Instr) (hfg : f[0] = g[0]) :
    SameButFl (effectOf i (s.setFl f)) (effectOf i (s.setFl g)) := by
  cases i with
  | hlt => rfl
  | ret => exact retBody_ignoresFl.sameButFl
  | push a => exact (pushBody_ignoresFl a).sameButFl
  | pop a => exact (popBody_ignoresFl a).sameButFl
  | prn a => exact (prnBody_ignoresFl a).sameButFl
  | call a => exact (callBody_ignoresFl a).sameButFl
  | jmp a => exact (jumpTo_ignoresFl a).sameButFl
  | jeq a | jne a =>
    simp only [effectOf, equalFlag_setFl_congr hfg]
    exact (branchIf_ignoresFl _ a).sameButFl
  | ldi a v => exact (ldiBody_ignoresFl a v).sameButFl
  | cmp a b => exact congrArg _ (aluCompare_setFl a b s f g)
  | add a b => exact (aluWrite_ignoresFl addResult a b).sameButFl
  | mul a b => exact (aluWrite_ignoresFl mulResult a b).sameButFl
  | mod a b => exact (aluWrite_ignoresFl modResult a b).sameButFl
  | or a b => exact (aluWrite_ignoresFl orResult a b).sameButFl
  | shl a b => exact (aluWrite_ignoresFl shlResult a b).sameButFl
  | shr a b => exact (aluWrite_ignoresFl shrResult a b).sameButFl

/-- The end of an instruction reads no FL either. -/
theorem complete_sameButFl {op : Byte} {x y : Except Condition State} (h : SameButFl x y)
    (ht : complete op (s.setFl f) x = .next t) (hu : complete op (s.setFl g) y = .next u) :
    t.setFl 0 = u.setFl 0 := by
  obtain ⟨c, rfl, rfl⟩ | ⟨t', rfl, rfl⟩ := complete_inv ht <;>
    obtain ⟨d, rfl, rfl⟩ | ⟨u', rfl, rfl⟩ := complete_inv hu
  · cases Except.error.inj h
    rfl
  · cases h
  · cases h
  · have hsame : t'.setFl 0 = u'.setFl 0 := Except.ok.inj h
    split
    · exact hsame
    · exact congrArg (State.setPc · (s.pc + instructionSize op)) hsame

/-- A CMP that raises nothing leaves nothing of the old FL. -/
theorem exec_cmp_setFl {a b : Operand} (hf : exec (.cmp a b) (s.setFl f) = .next t)
    (hg : exec (.cmp a b) (s.setFl g) = .next u) (hfault : t.fault = s.fault) (hempty : s.fault.cause = .noCondition) :
    t = u := by
  rw [exec_eq_complete] at hf hg
  obtain ⟨c, -, rfl⟩ | ⟨v, hv, rfl⟩ := complete_inv hf
  · exact absurd hfault (takeFatal_fault_ne (s := s) hempty)
  · have hv' : effectOf (.cmp a b) (s.setFl g) = .ok v := (aluCompare_setFl a b s g f).trans hv
    rw [hv'] at hg
    exact Host.Outcome.next.inj hg

/-- Settles O53: only JEQ and JNE read FL, of it E alone; CMP writes all of it. -/
theorem flagsActOnlyThroughEqual : Obligations.FlagsActOnlyThroughEqual := by
  intro i s t u f g hfg ht hu
  refine ⟨?_, ?_⟩
  · exact complete_sameButFl (effectOf_sameButFl i hfg) ((exec_eq_complete i _).symm.trans ht)
      ((exec_eq_complete i _).symm.trans hu)
  · rintro a b rfl hfault hempty
    exact exec_cmp_setFl ht hu hfault hempty

end Sys2Proof.Proofs.FlagsNoninterference
end

section
/-! PROOFS of the stops for an operand: an index above 7 or a missing byte, where the instruction consults it. -/

namespace Sys2Proof.Proofs.OperandStops
open Sys2Proof.Machine

variable {s : State} {a b : Operand} {c : Condition}

/-- The faulted stop of an instruction that raises, as `RaisesBeforeAnyWrite` says it. -/
theorem raises_of_effectOf_error {i : Instr} (h : effectOf i s = .error c) :
    RaisesBeforeAnyWrite (exec i s) s c.cause :=
  ⟨_, exec_stops h, rfl, rfl, rfl, rfl, rfl, rfl, rfl⟩

/-! ### The two registers of an ALU operation -/

/-- Operand a is consulted and checked, then operand b (R130, R141). -/
def aluRegisters (a b : Operand) (s : State) : Except Condition (Fin 8 × Fin 8) :=
  match registerA a s with
  | .error c => .error c
  | .ok ka =>
    match registerB b s with
    | .error c => .error c
    | .ok kb => .ok (ka, kb)

theorem aluRegisters_of_registerA (h : registerA a s = .error c) : aluRegisters a b s = .error c := by
  simp [aluRegisters, h]

theorem aluRegisters_of_registerB (k : Fin 8) (h : registerB b s = .error c) :
    aluRegisters (regOperand k) b s = .error c := by
  simp [aluRegisters, h]

/-- Index a is reported before index b. -/
theorem aluRegisters_index_error {a b : Byte} (h : 8 ≤ a.toNat ∨ 8 ≤ b.toNat) (s : State) :
    aluRegisters (.byte a) (.byte b) s = .error (.registerOutOfRange (if 8 ≤ a.toNat then a else b)) := by
  by_cases ha : 8 ≤ a.toNat
  · rw [if_pos ha]
    exact aluRegisters_of_registerA (registerA_error s ha)
  · obtain ⟨k, hk⟩ := (byte_cases a).resolve_right ha
    rw [if_neg ha, hk]
    exact aluRegisters_of_registerB k (registerB_error s (h.resolve_left ha))

theorem aluRegisters_error_inv (h : aluRegisters a b s = .error c) :
    registerA a s = .error c ∨ ∃ ka, registerA a s = .ok ka ∧ registerB b s = .error c := by
  unfold aluRegisters at h
  cases hA : registerA a s with
  | error d => exact .inl (by simpa [hA] using h)
  | ok ka =>
    cases hB : registerB b s with
    | error d => exact .inr ⟨ka, rfl, by simpa [hA, hB] using h⟩
    | ok kb => simp [hA, hB] at h

/-- The effect of an ALU operation begins with finding its two registers. -/
theorem aluWrite_error (f : Byte → Byte → Except Condition Byte) (h : aluRegisters a b s = .error c) :
    aluWrite f a b s = .error c := by
  obtain hA | ⟨ka, hA, hB⟩ := aluRegisters_error_inv h
  · simp [aluWrite, hA]
  · simp [aluWrite, hA, hB]

theorem aluCompare_error (h : aluRegisters a b s = .error c) : aluCompare a b s = .error c := by
  obtain hA | ⟨ka, hA, hB⟩ := aluRegisters_error_inv h
  · simp [aluCompare, hA]
  · simp [aluCompare, hA, hB]

/-- The seven ALU operations are the faulted stop with this condition and their own opcodes. -/
def AluStops (a b : Operand) (s : State) (cause : Cause) (info : Option Nat) : Prop :=
  let stop := fun op : Byte => Host.Outcome.next (faultedStop s cause (some op) info)
  exec (.add a b) s = stop 0xA0 ∧ exec (.mul a b) s = stop 0xA2 ∧ exec (.mod a b) s = stop 0xA4 ∧
    exec (.cmp a b) s = stop 0xA7 ∧ exec (.or a b) s = stop 0xAA ∧ exec (.shl a b) s = stop 0xAC ∧
    exec (.shr a b) s = stop 0xAD

theorem aluStops (h : aluRegisters a b s = .error c) : AluStops a b s c.cause c.info :=
  ⟨exec_stops (i := .add a b) (aluWrite_error addResult h), exec_stops (i := .mul a b) (aluWrite_error mulResult h),
    exec_stops (i := .mod a b) (aluWrite_error modResult h), exec_stops (i := .cmp a b) (aluCompare_error h),
    exec_stops (i := .or a b) (aluWrite_error orResult h), exec_stops (i := .shl a b) (aluWrite_error shlResult h),
    exec_stops (i := .shr a b) (aluWrite_error shrResult h)⟩

/-- Settles O31: none of the seven finds its registers, and each reports the index that stopped it. -/
theorem aluIndexAboveSevenStopsPrecisely : Obligations.AluIndexAboveSevenStopsPrecisely := by
  intro s a b h
  have hstops := aluStops (aluRegisters_index_error h s)
  rw [Condition.info, apply_ite BitVec.toNat] at hstops
  exact hstops

/-- Settles O35: operand b is not consulted once index a is out of range. -/
theorem aluChecksIndexBeforeConsultingB : Obligations.AluChecksIndexBeforeConsultingB :=
  fun s _ h => aluStops (aluRegisters_of_registerA (registerA_error s h))

/-- Settles O33: both registers exist, so MOD gets to its divisor. -/
theorem modByZeroStopsPrecisely : Obligations.ModByZeroStopsPrecisely := by
  intro s ka kb hzero
  have hmod : effectOf (.mod (regOperand ka) (regOperand kb)) s = .error .divisionByZero := by
    simp [effectOf, aluWrite, modResult, hzero]
  exact exec_stops hmod

/-! ### The register of the other instructions -/

/-- PRN, PUSH, POP, CALL, JMP, a JEQ with E = 1 and a JNE with E = 0 are the faulted stop with this condition and their
own opcodes. -/
def RegisterAStops (a : Operand) (s : State) (cause : Cause) (info : Option Nat) : Prop :=
  let stop := fun op : Byte => Host.Outcome.next (faultedStop s cause (some op) info)
  exec (.prn a) s = stop 0x47 ∧ exec (.push a) s = stop 0x45 ∧ exec (.pop a) s = stop 0x46 ∧
    exec (.call a) s = stop 0x50 ∧ exec (.jmp a) s = stop 0x54 ∧
    (s.fl[0] = true → exec (.jeq a) s = stop 0x55) ∧ (s.fl[0] = false → exec (.jne a) s = stop 0x56)

/-- E is bit 0 of FL (R28). -/
theorem equalFlag_eq (s : State) : s.equalFlag = s.fl[0] := rfl

theorem prnBody_error (h : registerA a s = .error c) : prnBody a s = .error c := by
  simp [prnBody, h]

theorem jumpTo_error (h : registerA a s = .error c) : jumpTo a s = .error c := by
  simp [jumpTo, h]

/-- Each of the seven finds its register first, before any stack check. -/
theorem registerAStops (h : registerA a s = .error c) : RegisterAStops a s c.cause c.info := by
  refine ⟨exec_stops (i := .prn a) ?_, exec_stops (i := .push a) ?_, exec_stops (i := .pop a) ?_,
    exec_stops (i := .call a) ?_, exec_stops (i := .jmp a) ?_, fun hE => exec_stops (i := .jeq a) ?_,
    fun hE => exec_stops (i := .jne a) ?_⟩
  · exact prnBody_error h
  · simp [effectOf, pushBody, h]
  · simp [effectOf, popBody, h]
  · simp [effectOf, callBody, h]
  · exact jumpTo_error h
  · simp [effectOf, branchIf, equalFlag_eq, hE, jumpTo_error h]
  · simp [effectOf, branchIf, equalFlag_eq, hE, jumpTo_error h]

/-! ### LDI: operand a, the immediate, then the index (log 10, 23) -/

theorem ldiBody_missing_a (i : Operand) (s : State) :
    ldiBody .missing i s = .error (.addressOutOfRange (s.pc + 1)) := rfl

theorem ldiBody_missing_immediate (a : Byte) (s : State) :
    ldiBody (.byte a) .missing s = .error (.addressOutOfRange (s.pc + 2)) := rfl

theorem ldiBody_index_error {a : Byte} (v : Byte) (h : 8 ≤ a.toNat) :
    ldiBody (.byte a) (.byte v) s = .error (.registerOutOfRange a) := by
  simp [ldiBody, consult, registerIndex_error h]

/-- Settles O32: LDI checks the index when it writes, the others when they find their register. -/
theorem indexAboveSevenStopsPrecisely : Obligations.IndexAboveSevenStopsPrecisely :=
  fun s a v h => ⟨exec_stops (i := .ldi (.byte a) (.byte v)) (ldiBody_index_error v h),
    registerAStops (registerA_error s h)⟩

/-- Settles O34: each instruction consults operand a, and those with two operands then b, before it has an effect. -/
theorem missingOperandRaisesWhereConsulted : Obligations.MissingOperandRaisesWhereConsulted :=
  fun s b a k => ⟨registerAStops (registerA_missing s),
    ⟨exec_stops (i := .ldi .missing b) (ldiBody_missing_a b s),
      aluStops (aluRegisters_of_registerA (registerA_missing s))⟩,
    exec_stops (i := .ldi (.byte a) .missing) (ldiBody_missing_immediate a s),
    aluStops (aluRegisters_of_registerB k (registerB_missing s))⟩

end Sys2Proof.Proofs.OperandStops
end

section
/-! PROOFS of the data movement and ALU instructions (42_data_io.md, 41_alu.md). -/

namespace Sys2Proof.Proofs.DataAndAlu
open Sys2Proof.Machine
open Sys2Proof.Proofs.OperandStops

/-! ### HLT, LDI and PRN -/

/-- Settles O23: the default advance is one byte. -/
theorem hltHaltsPastItself : Obligations.HltHaltsPastItself := by
  intro s
  exact exec_advances (i := .hlt) (u := s.setRun .halted) rfl (setsPc_opcode _)

/-- What LDI and the ALU operations with a result leave unchanged: they write one register and PC. -/
theorem setReg_advance_frame (s : State) (k : Fin 8) (v : Byte) (pc : Nat) :
    let t := (s.setReg k v).setPc pc
    t.pc = pc ∧ SameRegsBut [k] s t ∧ t.fl = s.fl ∧ SameMem s t ∧ t.output = s.output ∧ SameSystem s t := by
  refine ⟨rfl, fun j hj => State.reg_setReg_other s (List.ne_of_not_mem_cons hj) v, rfl, fun _ => rfl, rfl, ?_⟩
  simp [SameSystem]

/-- Settles O21, by `ldiBody_ok` and the frame of a register write. -/
theorem ldiWritesTheImmediate : Obligations.LdiWritesTheImmediate := by
  refine ⟨fun a i => rfl, fun s k v => ?_, fun s a i h => ?_⟩
  · exact ⟨_, exec_advances (i := .ldi _ _) (ldiBody_ok s k v) (setsPc_opcode _), s.reg_setReg_same k v,
      setReg_advance_frame s k v _⟩
  · exact raises_of_effectOf_error (i := .ldi (.byte a) (.byte i)) (ldiBody_index_error i h)

theorem prnBody_ok (s : State) (k : Fin 8) : prnBody (regOperand k) s = .ok (s.emit (s.reg k)) := by
  simp [prnBody]

/-- Settles O22, by `prnBody_ok`. -/
theorem prnEmitsTheRegister : Obligations.PrnEmitsTheRegister := by
  refine ⟨fun a => rfl, fun s k => ?_, fun s a h => ?_⟩
  · refine ⟨_, exec_advances (i := .prn _) (prnBody_ok s k) (setsPc_opcode _), rfl, rfl, rfl, rfl, fun _ => rfl, ?_⟩
    simp [SameSystem]
  · exact raises_of_effectOf_error (i := .prn _) (prnBody_error (registerA_error s h))

/-! ### The ALU operations with a result -/

variable {i : Instr} {f : Byte → Byte → Except Condition Byte}

/-- The frame of an ALU operation that completes, with its result in the first register. -/
theorem exec_alu {s : State} {ka kb : Fin 8} {v : Byte} (hlen : i.operands.length = 2) (hp : setsPc i.opcode = false)
    (hi : effectOf i s = aluWrite f (regOperand ka) (regOperand kb) s) (hf : f (s.reg ka) (s.reg kb) = .ok v) :
    ∃ t, exec i s = .next t ∧ t.reg ka = v ∧ t.pc = s.pc + 3 ∧ SameRegsBut [ka] s t ∧ t.fl = s.fl ∧ SameMem s t ∧
      t.output = s.output ∧ SameSystem s t := by
  have hexec := exec_advances (hi.trans (aluWrite_ok hf)) hp
  rw [hlen] at hexec
  exact ⟨_, hexec, s.reg_setReg_same ka v, setReg_advance_frame s ka v (s.pc + 3)⟩

theorem exec_alu_raises {s : State} {a b : Byte} (hi : effectOf i s = aluWrite f (.byte a) (.byte b) s)
    (h : 8 ≤ a.toNat ∨ 8 ≤ b.toNat) : RaisesBeforeAnyWrite (exec i s) s .registerOutOfRange :=
  raises_of_effectOf_error (hi.trans (aluWrite_error f (aluRegisters_index_error h s)))

/-- Settles O24: the result is the sum masked to a byte. -/
theorem addWritesTheSumModulo256 : Obligations.AddWritesTheSumModulo256 := by
  refine ⟨fun a b => rfl, fun s ka kb => ?_, fun s a b h => exec_alu_raises (f := addResult) rfl h⟩
  obtain ⟨t, hexec, hreg, hframe⟩ := exec_alu (i := .add _ _) (f := addResult) rfl (setsPc_opcode _) rfl rfl
  refine ⟨t, hexec, ?_, hframe⟩
  rw [hreg, BitVec.toNat_ofNat]

/-- Settles O25: the result is the product masked to a byte. -/
theorem mulWritesTheProductModulo256 : Obligations.MulWritesTheProductModulo256 := by
  refine ⟨fun a b => rfl, fun s ka kb => ?_, fun s a b h => exec_alu_raises (f := mulResult) rfl h⟩
  obtain ⟨t, hexec, hreg, hframe⟩ := exec_alu (i := .mul _ _) (f := mulResult) rfl (setsPc_opcode _) rfl rfl
  refine ⟨t, hexec, ?_, hframe⟩
  rw [hreg, BitVec.toNat_ofNat]

/-- Settles O26: the result is the library's bitwise or, read bit by bit. -/
theorem orWritesTheBitwiseOr : Obligations.OrWritesTheBitwiseOr := by
  refine ⟨fun a b => rfl, fun s ka kb => ?_, fun s a b h => exec_alu_raises (f := orResult) rfl h⟩
  obtain ⟨t, hexec, hreg, hframe⟩ := exec_alu (i := .or _ _) (f := orResult) rfl (setsPc_opcode _) rfl rfl
  refine ⟨t, hexec, fun j => ?_, hframe⟩
  rw [hreg]
  exact BitVec.getElem_or j.isLt

/-- A value of at most a byte is the byte it makes. -/
theorem toNat_ofNat_of_le {n : Nat} {x : Byte} (h : n ≤ x.toNat) : (BitVec.ofNat 8 n).toNat = n := by
  rw [BitVec.toNat_ofNat]
  exact Nat.mod_eq_of_lt (Nat.lt_of_le_of_lt h x.isLt)

theorem modResult_ok (ra : Byte) {rb : Byte} (h : rb ≠ 0) :
    modResult ra rb = .ok (BitVec.ofNat 8 (ra.toNat % rb.toNat)) := if_neg h

/-- Settles O27: a remainder fits in a byte; the two stops are those of O33 and O31. -/
theorem modWritesTheRemainder : Obligations.ModWritesTheRemainder := by
  refine ⟨fun a b => rfl, fun s ka kb hne => ?_, fun s ka kb hzero => ?_, fun s a b h => ?_⟩
  · obtain ⟨t, hexec, hreg, hframe⟩ :=
      exec_alu (i := .mod _ _) (f := modResult) rfl (setsPc_opcode _) rfl (modResult_ok _ hne)
    refine ⟨t, hexec, ?_, hframe⟩
    rw [hreg, toNat_ofNat_of_le (Nat.mod_le _ _)]
  · exact ⟨_, modByZeroStopsPrecisely s ka kb hzero, rfl, rfl, rfl, rfl⟩
  · obtain ⟨-, -, hmod, -⟩ := aluIndexAboveSevenStopsPrecisely s a b h
    exact ⟨_, hmod, rfl, rfl, rfl, rfl⟩

/-! ### Shifts by the whole byte -/

/-- Shifting left by 8 or more leaves no bit among the low eight. -/
theorem ofNat_mul_two_pow_eq_zero (x : Nat) {n : Nat} (h : 8 ≤ n) : BitVec.ofNat 8 (x * 2 ^ n) = 0 := by
  refine BitVec.eq_of_toNat_eq ?_
  rw [BitVec.toNat_ofNat]
  exact Nat.mod_eq_zero_of_dvd (Dvd.dvd.mul_left (pow_dvd_pow 2 h) x)

/-- Shifting a byte right by 8 or more leaves no bit. -/
theorem div_two_pow_eq_zero (x : Byte) {n : Nat} (h : 8 ≤ n) : x.toNat / 2 ^ n = 0 :=
  Nat.div_eq_of_lt (Nat.lt_of_lt_of_le x.isLt (Nat.pow_le_pow_right (by decide) h))

/-- Settles O28: the result is the exact shift masked to a byte. -/
theorem shlShiftsByTheWholeByte : Obligations.ShlShiftsByTheWholeByte := by
  refine ⟨fun a b => rfl, fun s ka kb => ?_, fun s a b h => exec_alu_raises (f := shlResult) rfl h⟩
  obtain ⟨t, hexec, hreg, hframe⟩ := exec_alu (i := .shl _ _) (f := shlResult) rfl (setsPc_opcode _) rfl rfl
  refine ⟨t, hexec, ?_, fun hbig => ?_, hframe⟩
  · rw [hreg, BitVec.toNat_ofNat]
  · rw [hreg, ofNat_mul_two_pow_eq_zero _ hbig]

/-- Settles O29: the exact shift is no more than the byte, so masking does nothing. -/
theorem shrShiftsByTheWholeByte : Obligations.ShrShiftsByTheWholeByte := by
  refine ⟨fun a b => rfl, fun s ka kb => ?_, fun s a b h => exec_alu_raises (f := shrResult) rfl h⟩
  obtain ⟨t, hexec, hreg, hframe⟩ := exec_alu (i := .shr _ _) (f := shrResult) rfl (setsPc_opcode _) rfl rfl
  refine ⟨t, hexec, ?_, fun hbig => ?_, hframe⟩
  · rw [hreg, toNat_ofNat_of_le (Nat.div_le_self _ _)]
  · rw [hreg, div_two_pow_eq_zero _ hbig]
    rfl

/-! ### CMP -/

/-- Settles O30: FL takes `compareFlags`, and nothing else but PC is written. -/
theorem cmpSetsExactlyOneFlag : Obligations.CmpSetsExactlyOneFlag := by
  refine ⟨fun a b => rfl, fun s ka kb => ?_, fun s a b h => ?_⟩
  · refine ⟨_, exec_advances (i := .cmp _ _) (aluCompare_ok s ka kb) (setsPc_opcode _), rfl, rfl, rfl, fun _ => rfl,
      rfl, ?_⟩
    simp [SameSystem]
  · exact raises_of_effectOf_error (i := .cmp _ _) (aluCompare_error (aluRegisters_index_error h s))

end Sys2Proof.Proofs.DataAndAlu
end

section
/-! PROOFS of the stack and control-flow instructions (43_stack.md, 44_control_flow.md). -/

namespace Sys2Proof.Proofs.StackAndControl
open Sys2Proof.Machine
open Sys2Proof.Proofs.OperandStops (raises_of_effectOf_error jumpTo_error equalFlag_eq)
open Sys2Proof.Proofs.SharedStack (toNat_returnAddress exec_call_pushes)

variable {s t : State}

/-! ### PUSH and CALL: the store at the decremented SP -/

/-- What a store of `v` below SP does to registers and memory, and what it leaves. -/
structure StoredBelow (s t : State) (v : Byte) : Prop where
  sp_eq : t.sp.toNat = s.sp.toNat - 1
  read_eq : t.mem.read (s.sp.toNat - 1) = v
  read_other : ∀ addr : Nat, addr ≠ s.sp.toNat - 1 → t.mem.read addr = s.mem.read addr
  regs_eq : SameRegsBut [7] s t
  fl_eq : t.fl = s.fl
  output_eq : t.output = s.output
  system_eq : SameSystem s t

theorem storedBelow_store (hsp : s.sp ≠ 0) (v : Byte) :
    StoredBelow s ((s.setSp (s.sp - 1)).setMem (s.mem.write (s.sp - 1).toNat v)) v := by
  obtain ⟨hsub, -⟩ := sp_sub_one hsp
  rw [hsub]
  exact {
    sp_eq := by simpa using hsub
    read_eq := Memory.read_write_same _ _ _
    read_other := fun addr hne => Memory.read_write_other _ hne v
    regs_eq := fun j hj => State.reg_setReg_other s (List.ne_of_not_mem_cons hj) _
    fl_eq := rfl
    output_eq := rfl
    system_eq := by simp [SameSystem] }

theorem StoredBelow.setPc {v : Byte} (h : StoredBelow s t v) (pc : Nat) : StoredBelow s (t.setPc pc) v :=
  ⟨h.sp_eq, h.read_eq, h.read_other, h.regs_eq, h.fl_eq, h.output_eq, h.system_eq⟩

/-- A register read after the decrement: R7 is the decremented SP (D2). -/
theorem reg_setSp_sub_one (s : State) (k : Fin 8) :
    (s.setSp (s.sp - 1)).reg k = if k = 7 then s.sp - 1 else s.reg k := by
  rw [State.reg_setSp]
  exact if_congr eq_comm rfl rfl

theorem pushBody_overflow (k : Fin 8) (h : s.sp = 0) : pushBody (regOperand k) s = .error .stackOverflow := by
  simp [pushBody, stackDown_error h]

theorem callBody_overflow (k : Fin 8) (h : s.sp = 0) : callBody (regOperand k) s = .error .stackOverflow := by
  simp [callBody, stackDown_error h]

theorem callBody_return_address_error (k : Fin 8) (h : s.sp ≠ 0) (hp : memSize ≤ s.pc + 2) :
    callBody (regOperand k) s = .error (.addressOutOfRange (s.pc + 2)) := by
  simp [callBody, stackDown_ok h, afterOneOperand, hp]

/-- Settles O36: the stored byte is read after the decrement. -/
theorem pushStoresBelowTheStackPointer : Obligations.PushStoresBelowTheStackPointer := by
  refine ⟨fun a => rfl, fun s k hsp => ?_, fun s k hsp => exec_stops (i := .push _) (pushBody_overflow k hsp)⟩
  have hexec := exec_advances (i := .push _) (pushBody_ok k hsp) (setsPc_opcode _)
  rw [reg_setSp_sub_one] at hexec
  have h := (storedBelow_store hsp (if k = 7 then s.sp - 1 else s.reg k)).setPc (s.pc + 2)
  exact ⟨_, hexec, h.sp_eq, h.read_eq, h.read_other, rfl, h.regs_eq, h.fl_eq, h.output_eq, h.system_eq⟩

/-- Settles O40: the overflow is checked before the return address, and the target is read after the decrement. -/
theorem callPushesTheReturnAddress : Obligations.CallPushesTheReturnAddress := by
  refine ⟨fun a => rfl, fun s k hsp hpc => ?_,
    fun s k hsp hpc => exec_stops (i := .call _) (callBody_return_address_error k hsp hpc),
    fun s k hsp => exec_stops (i := .call _) (callBody_overflow k hsp)⟩
  have hret : s.pc + 2 < memSize := Nat.lt_succ_of_le hpc
  have hexec := exec_jumps (i := .call _) (callBody_ok k hsp hret) (setsPc_opcode _)
  rw [reg_setSp_sub_one, apply_ite BitVec.toNat, (sp_sub_one hsp).1] at hexec
  have h := (storedBelow_store hsp (BitVec.ofNat 8 (s.pc + 2))).setPc
    (if k = 7 then s.sp.toNat - 1 else (s.reg k).toNat)
  rw [(sp_sub_one hsp).1] at h
  exact ⟨_, hexec, h.sp_eq, by rw [h.read_eq, toNat_returnAddress hret], h.read_other, rfl, h.regs_eq, h.fl_eq,
    h.output_eq, h.system_eq⟩

/-! ### POP and RET: the load at SP -/

/-- Below the top-of-stack constant SP + 1 does not wrap. -/
theorem toNat_add_one {x : Byte} (h : x.toNat < 0xF4) : (x + 1).toNat = x.toNat + 1 := by
  rw [BitVec.toNat_add, show (1 : Byte).toNat = 1 from rfl]
  omega

theorem popBody_underflow (k : Fin 8) (h : 0xF4 ≤ s.sp.toNat) :
    popBody (regOperand k) s = .error .stackUnderflow := by
  simp [popBody, stackTop_error h]

theorem popBody_sp_underflow (h : s.sp.toNat < 0xF4) (hv : 0xF4 ≤ (s.mem.read s.sp.toNat).toNat) :
    popBody (regOperand 7) s = .error .stackUnderflow := by
  have hover : spInit.toNat < (s.mem.read s.sp.toNat).toNat + 1 := Nat.lt_succ_of_le hv
  simp only [popBody, registerA_regOperand, stackTop_ok h]
  rw [if_neg (by decide), if_pos hover]

theorem retBody_underflow (h : 0xF4 ≤ s.sp.toNat) : retBody s = .error .stackUnderflow := by
  simp [retBody, stackTop_error h]

/-- Settles O37: the register takes the byte before SP is incremented, so SP is one more for every register but R7. -/
theorem popLoadsFromTheStackPointer : Obligations.PopLoadsFromTheStackPointer := by
  refine ⟨fun a => rfl, fun s k hk hsp => ?_, fun s k hsp => exec_stops (i := .pop _) (popBody_underflow k hsp)⟩
  refine ⟨_, exec_advances (i := .pop _) (popBody_ok hk hsp) (setsPc_opcode _), ?_, ?_, rfl, fun j hj => ?_,
    fun _ => rfl, rfl, rfl, ?_⟩
  · exact (State.reg_setReg_other _ hk _).trans (s.reg_setReg_same k _)
  · simpa using toNat_add_one hsp
  · obtain ⟨hjk, hjsp⟩ : j ≠ k ∧ j ≠ 7 := by simpa using hj
    exact (State.reg_setReg_other _ hjsp _).trans (State.reg_setReg_other s hjk _)
  · simp [SameSystem]

/-- Settles O38: into R7 the popped byte itself is incremented and must stay within the bound (D17). -/
theorem popIntoStackPointerAddsOne : Obligations.PopIntoStackPointerAddsOne := by
  intro s hsp
  refine ⟨fun hv => ?_, fun hv => exec_stops (i := .pop (regOperand 7)) (popBody_sp_underflow hsp hv)⟩
  refine ⟨_, exec_advances (i := .pop _) (popBody_sp_ok hsp (Nat.succ_le_of_lt hv)) (setsPc_opcode _), ?_, rfl,
    fun j hj => State.reg_setReg_other s (List.ne_of_not_mem_cons hj) _, fun _ => rfl, rfl, rfl, ?_⟩
  · simpa using toNat_add_one hv
  · simp [SameSystem]

/-- Settles O41, by `retBody_ok`. -/
theorem retPopsTheProgramCounter : Obligations.RetPopsTheProgramCounter := by
  refine ⟨rfl, fun s hsp => ?_, fun s hsp => raises_of_effectOf_error (i := .ret) (retBody_underflow hsp)⟩
  refine ⟨_, exec_jumps (i := .ret) (retBody_ok hsp) (setsPc_opcode _), rfl, ?_,
    fun j hj => State.reg_setReg_other _ (List.ne_of_not_mem_cons hj) _, fun _ => rfl, rfl, rfl, ?_⟩
  · simpa using toNat_add_one hsp
  · simp [SameSystem]

/-- Settles O45: RET reads SP and the byte there alone, and both are as the CALL left them. -/
theorem callThenRetResumes : Obligations.CallThenRetResumes := by
  intro s k hsp hle hpc
  have hret : s.pc + 2 < memSize := Nat.lt_succ_of_le hpc
  obtain ⟨t, hcall, ht⟩ := exec_call_pushes k hsp hret
  refine ⟨t, hcall, fun u husp hucell => ?_⟩
  have hlt : u.sp.toNat < spInit.toNat := husp ▸ ht.sp_lt_spInit hsp hle
  refine ⟨_, exec_jumps (i := .ret) (retBody_ok hlt) (setsPc_opcode _), ?_, ?_⟩
  · rw [State.setSp_pc, State.setPc_pc, hucell, ht.top_eq, toNat_returnAddress hret]
  · rw [State.sp_setSp, husp, ht.sp_add_one]

/-! ### JMP, JEQ and JNE -/

/-- Settles O42, by `jumpTo_ok`. -/
theorem jmpGoesToTheRegister : Obligations.JmpGoesToTheRegister :=
  ⟨fun _ => rfl, fun s k => exec_jumps (i := .jmp _) (jumpTo_ok s k) (setsPc_opcode _),
    fun s _ h => raises_of_effectOf_error (i := .jmp _) (jumpTo_error (registerA_error s h))⟩

theorem branchIf_taken {taken : Bool} (h : taken = true) (s : State) (k : Fin 8) :
    branchIf taken (regOperand k) s = .ok (s.setPc (s.reg k).toNat) := by
  rw [h]
  exact jumpTo_ok s k

/-- Not taken, a branch does not consult its operand (R113). -/
theorem branchIf_not_taken {taken : Bool} (h : taken = false) (s : State) (a : Operand) :
    branchIf taken a s = .ok (s.setPc (s.pc + 2)) := by
  rw [h]
  rfl

/-- Settles O43: JEQ is the branch on E. -/
theorem jeqBranchesOnEqual : Obligations.JeqBranchesOnEqual :=
  ⟨fun _ => rfl,
    fun s k hE => exec_jumps (i := .jeq _) (branchIf_taken (taken := s.equalFlag) hE s k) (setsPc_opcode _),
    fun s a hE => exec_jumps (i := .jeq _) (branchIf_not_taken (taken := s.equalFlag) hE s a) (setsPc_opcode _)⟩

/-- Settles O44: JNE is the branch on the complement of E. -/
theorem jneBranchesOnNotEqual : Obligations.JneBranchesOnNotEqual := by
  refine ⟨fun _ => rfl, fun s k hE => ?_, fun s a hE => ?_⟩
  · have htaken : (!s.equalFlag) = true := by rw [equalFlag_eq, hE]; rfl
    exact exec_jumps (i := .jne _) (branchIf_taken htaken s k) (setsPc_opcode _)
  · have hnot : (!s.equalFlag) = false := by rw [equalFlag_eq, hE]; rfl
    exact exec_jumps (i := .jne _) (branchIf_not_taken hnot s a) (setsPc_opcode _)

end Sys2Proof.Proofs.StackAndControl
end
